-- ==== Sys2Proof/Word.lean ====
section
/-! DEFINITION. The widths of the machine's data: a 16-bit word, an 8-bit byte, a 32-bit instruction word. -/

namespace Sys2Proof

/-- Sixteen bits: a register, a memory cell, an operand field, an address, an instruction index (rules R5, R82).
The signed reading `sgn` of rule R8 is `BitVec.toInt`, the unsigned pattern `pat` is `BitVec.toNat`: both
read the same sixteen bits. -/
abbrev Word := BitVec 16

/-- Eight bits: what IN reads and OUT emits (rules R180, R181). -/
abbrev Byte := BitVec 8

/-- One binary instruction word (rule R84). -/
abbrev InstrWord := BitVec 32

end Sys2Proof
end

