-- ==== Sys2Proof/Config.lean ====
section
/-! DEFINITION. What is fixed for a run: the parameters of rule R6, the hardwired threshold, and the free values. -/

namespace Sys2Proof

/-- The parameter `SHIFT_OVERWIDTH` of rule R6: what a shift by 16 or more does (rule R166, decision D14). -/
inductive ShiftOverwidth where
  | refuse
  | zero
  | mod16
  deriving DecidableEq, Repr

/-- The parameters of rule R6, each fixed before the first instruction executes and constant for the run.
`PROG_LEN` is the length of `prog`. `CTRL` is consumed as the run goes and stands in the state as a queue. -/
structure Params where
  /-- `PROG`, one binary word per instruction index (rules R22, R84, R91). -/
  prog : List InstrWord
  /-- `NUM_VARS`, the size of the variable region in cells. -/
  numVars : Word
  /-- `MIN_ADDR`, the smallest bare-integer literal of the source, or none. -/
  minAddr : Option Int
  /-- `INPUT`, every byte the environment supplies, first byte first. -/
  input : List Byte
  /-- `RESET_ZERO`: whether the registers start at 0 or hold no value (decision D10). -/
  resetZero : Bool
  /-- `SHIFT_OVERWIDTH`. -/
  shiftOverwidth : ShiftOverwidth
  deriving DecidableEq, Repr

/-- The identity string of rule R1 (decision D30). -/
def Config.identity : String := "rasm-cli/acc16"

/-- `THRESHOLD` of rules R6 and R36, hardwired. -/
def Config.threshold : Int := 200

/-- The parameters of a machine to which nothing has been supplied: the empty program and empty input of log
entry 3, with the defaults of rule R6 for `RESET_ZERO` and `SHIFT_OVERWIDTH` and `MIN_ADDR = none` (decision D7). -/
def Params.unsupplied : Params :=
  { prog := [], numVars := 0, minAddr := none, input := [], resetZero := true,
    shiftOverwidth := .refuse }

/-- FREE VALUE (log entry 2): what ACC holds at creation when `RESET_ZERO` is false. -/
opaque Config.unsetAcc : Word

/-- FREE VALUE (log entry 2): what IX holds at creation when `RESET_ZERO` is false. -/
opaque Config.unsetIx : Word

/-- FREE VALUE (log entry 2): what flag number `k` (rule R25: Z 0, N 1, V 2, C 3) holds at creation when
`RESET_ZERO` is false. -/
opaque Config.unsetFlag : Nat → Bool

/-- FREE VALUE (log entry 12): the input byte at a stream position, under no law (rule R33). Used only to let an
IN word placed by hand find a byte. -/
opaque Config.environmentByte : Nat → Byte

end Sys2Proof
end

