-- ==== Sys2Proof/Syntax.lean ====
section
/-! DEFINITION. The instruction set: the eighteen abstract variants with their mode tags (rules R80, R81), and the
thirty-one instructions of the opcode table (rule R88), one constructor per row. -/

namespace Sys2Proof

/-- The addressing-mode tag (rules R60, R81). -/
inductive Mode where
  | direct
  | immediate
  | indirect
  | indexed
  deriving DecidableEq, Repr

/-- The direction of an IO instruction (rule R80). -/
inductive Direction where
  | input
  | output
  deriving DecidableEq, Repr

/-- The eighteen abstract variants of rules R2 and R80, each with the fields the rule gives it. A term may carry a
mode its variant does not admit: `Variant.wellFormed` refuses it (rule R83). -/
inductive Variant where
  | io (direction : Direction)
  | load (value : Word) (mode : Mode)
  | loadIndex (value : Word)
  | move
  | subtract (value : Word) (mode : Mode)
  | store (address : Word)
  | add (value : Word) (mode : Mode)
  | increment (targetIsAcc : Bool)
  | decrement (targetIsAcc : Bool)
  | shiftLeft (count : Word)
  | shiftRight (count : Word)
  | xor (value : Word) (mode : Mode)
  | or (value : Word) (mode : Mode)
  | compare (value : Word) (mode : Mode)
  | jumpIfZero (target : Word) (mode : Mode)
  | jumpIfNotZero (target : Word) (mode : Mode)
  | endRun
  | unknown
  deriving DecidableEq, Repr

/-- The instructions of the machine, one constructor per row of the opcode table (rule R88), in the table's order.
The argument is the 16-bit operand field `OPR`. -/
inductive Instr where
  /-- UNKNOWN, rule R183. -/
  | unknown
  /-- OUT, rule R181. -/
  | out
  /-- IN, rule R180. -/
  | inp
  /-- LDD, rule R130. -/
  | ldd (address : Word)
  /-- LDM, rule R131. -/
  | ldm (value : Word)
  /-- LDI, rule R132. -/
  | ldi (pointer : Word)
  /-- LDX, rule R133. -/
  | ldx (base : Word)
  /-- LDR, rule R134. -/
  | ldr (value : Word)
  /-- MOV, rule R135. -/
  | mov
  /-- SUB (Direct), rule R145. -/
  | subDirect (address : Word)
  /-- SUB (Immediate), rule R146. -/
  | subImmediate (value : Word)
  /-- STO, rule R136. -/
  | sto (address : Word)
  /-- ADD (Direct), rule R143. -/
  | addDirect (address : Word)
  /-- ADD (Immediate), rule R144. -/
  | addImmediate (value : Word)
  /-- INC IX, rule R149. -/
  | incIx
  /-- INC ACC, rule R147. -/
  | incAcc
  /-- DEC IX, rule R150. -/
  | decIx
  /-- DEC ACC, rule R148. -/
  | decAcc
  /-- LSL, rule R164. -/
  | lsl (count : Word)
  /-- LSR, rule R165. -/
  | lsr (count : Word)
  /-- XOR (Direct), rule R160. -/
  | xorDirect (address : Word)
  /-- XOR (Immediate), rule R161. -/
  | xorImmediate (value : Word)
  /-- OR (Direct), rule R162. -/
  | orDirect (address : Word)
  /-- OR (Immediate), rule R163. -/
  | orImmediate (value : Word)
  /-- CMP (Direct), rule R151. -/
  | cmpDirect (address : Word)
  /-- CMP (Immediate), rule R152. -/
  | cmpImmediate (value : Word)
  /-- JPE (Direct), rule R170. -/
  | jpeDirect (target : Word)
  /-- JPE (Immediate), rule R171. -/
  | jpeImmediate (target : Word)
  /-- JPN (Direct), rule R172. -/
  | jpnDirect (target : Word)
  /-- JPN (Immediate), rule R173. -/
  | jpnImmediate (target : Word)
  /-- END, rule R182. -/
  | endRun
  deriving DecidableEq, Repr

end Sys2Proof
end

