-- ==== Sys2Proof/WellFormed.lean ====
section
/-! DEFINITION. Which abstract instructions are instructions of this machine (rule R83), and which shifts a run may
hold (rule R166). -/

namespace Sys2Proof

/-- Direct or Immediate: the two modes rule R83 admits outside Load. -/
def Mode.plain : Mode → Bool
  | .direct => true
  | .immediate => true
  | .indirect => false
  | .indexed => false

/-- The legal modes of each variant (rule R83; for Compare, decision D27). -/
def Variant.wellFormed : Variant → Bool
  | .io _ => true
  | .load _ _ => true
  | .loadIndex _ => true
  | .move => true
  | .subtract _ m => m.plain
  | .store _ => true
  | .add _ m => m.plain
  | .increment _ => true
  | .decrement _ => true
  | .shiftLeft _ => true
  | .shiftRight _ => true
  | .xor _ m => m.plain
  | .or _ m => m.plain
  | .compare _ m => m.plain
  | .jumpIfZero _ m => m.plain
  | .jumpIfNotZero _ m => m.plain
  | .endRun => true
  | .unknown => true

/-- The shift count an instruction carries, for the two shifts (rules R164, R165). -/
def Instr.shiftCount : Instr → Option Word
  | .lsl c => some c
  | .lsr c => some c
  | .unknown | .out | .inp | .ldd _ | .ldm _ | .ldi _ | .ldx _ | .ldr _ | .mov => none
  | .subDirect _ | .subImmediate _ | .sto _ | .addDirect _ | .addImmediate _ => none
  | .incIx | .incAcc | .decIx | .decAcc => none
  | .xorDirect _ | .xorImmediate _ | .orDirect _ | .orImmediate _ => none
  | .cmpDirect _ | .cmpImmediate _ | .jpeDirect _ | .jpeImmediate _ | .jpnDirect _ | .jpnImmediate _ => none
  | .endRun => none

/-- A shift by 16 or more is ill-formed under `SHIFT_OVERWIDTH = refuse` and under no other setting (rule R166);
every other instruction is well formed, since its operand field admits every pattern (rule R82). -/
def Instr.wellFormed (setting : ShiftOverwidth) (i : Instr) : Bool :=
  match i.shiftCount with
  | none => true
  | some c => setting != .refuse || decide (c.toNat < 16)

end Sys2Proof
end

