-- ==== Sys2Proof/Decode.lean ====
section
/-! DEFINITION. The binary instruction word (rules R84 to R92): its fields, the decoder, total on every word and
rejecting by name, and after it the encoder. Then the correspondence of instructions and abstract variants. -/

namespace Sys2Proof

/-- Field `OP`, bits 31:24 (rule R84). -/
def fieldOP (w : InstrWord) : Byte := w.extractLsb' 24 8

/-- Field `RSV`, bits 23:18 (rule R84). -/
def fieldRSV (w : InstrWord) : BitVec 6 := w.extractLsb' 18 6

/-- Field `M`, bits 17:16 (rule R84). -/
def fieldM (w : InstrWord) : BitVec 2 := w.extractLsb' 16 2

/-- Field `OPR`, bits 15:0 (rule R84). -/
def fieldOPR (w : InstrWord) : Word := w.extractLsb' 0 16

/-- Why a word is reserved (rule R89), or why bytes are no word. -/
inductive DecodeError where
  /-- Fewer than four bytes (rule R92). -/
  | truncated
  /-- `RSV` is not 0. -/
  | reservedBits
  /-- `OP` is one of 0x12 to 0xFF. -/
  | unassignedOpcode
  /-- `M` holds a value the opcode does not admit. -/
  | illegalMode
  /-- `OPR` is not 0 on an instruction without operand. -/
  | strayOperand
  deriving DecidableEq, Repr

/-- An instruction without operand needs `OPR = 0` (rule R87). -/
def decodeBare (opr : Word) (i : Instr) : Except DecodeError Instr :=
  if opr = 0 then .ok i else .error .strayOperand

/-- The instruction named by `OP` and `M` (rules R85, R86, R88), with the operand field. -/
def decodeFields (op m : Nat) (opr : Word) : Except DecodeError Instr :=
  match op, m with
  | 0x00, 0 => decodeBare opr .unknown
  | 0x01, 0 => decodeBare opr .out
  | 0x01, 1 => decodeBare opr .inp
  | 0x02, 0 => .ok (.ldd opr)
  | 0x02, 1 => .ok (.ldm opr)
  | 0x02, 2 => .ok (.ldi opr)
  | 0x02, 3 => .ok (.ldx opr)
  | 0x03, 0 => .ok (.ldr opr)
  | 0x04, 0 => decodeBare opr .mov
  | 0x05, 0 => .ok (.subDirect opr)
  | 0x05, 1 => .ok (.subImmediate opr)
  | 0x06, 0 => .ok (.sto opr)
  | 0x07, 0 => .ok (.addDirect opr)
  | 0x07, 1 => .ok (.addImmediate opr)
  | 0x08, 0 => decodeBare opr .incIx
  | 0x08, 1 => decodeBare opr .incAcc
  | 0x09, 0 => decodeBare opr .decIx
  | 0x09, 1 => decodeBare opr .decAcc
  | 0x0A, 0 => .ok (.lsl opr)
  | 0x0B, 0 => .ok (.lsr opr)
  | 0x0C, 0 => .ok (.xorDirect opr)
  | 0x0C, 1 => .ok (.xorImmediate opr)
  | 0x0D, 0 => .ok (.orDirect opr)
  | 0x0D, 1 => .ok (.orImmediate opr)
  | 0x0E, 0 => .ok (.cmpDirect opr)
  | 0x0E, 1 => .ok (.cmpImmediate opr)
  | 0x0F, 0 => .ok (.jpeDirect opr)
  | 0x0F, 1 => .ok (.jpeImmediate opr)
  | 0x10, 0 => .ok (.jpnDirect opr)
  | 0x10, 1 => .ok (.jpnImmediate opr)
  | 0x11, 0 => decodeBare opr .endRun
  | _, _ => if op ≤ 0x11 then .error .illegalMode else .error .unassignedOpcode

/-- The word decoder of rule R88, total on all words; every reserved word (rule R89) is rejected by name. -/
def decode (w : InstrWord) : Except DecodeError Instr :=
  if fieldRSV w = 0 then decodeFields (fieldOP w).toNat (fieldM w).toNat (fieldOPR w)
  else .error .reservedBits

/-- The word with the given fields and `RSV = 0` (rule R84). -/
def packWord (op : Byte) (m : BitVec 2) (opr : Word) : InstrWord := op ++ 0#6 ++ m ++ opr

/-- The word of an instruction (rules R85 to R88). -/
def encode : Instr → InstrWord
  | .unknown => packWord 0x00 0 0
  | .out => packWord 0x01 0 0
  | .inp => packWord 0x01 1 0
  | .ldd v => packWord 0x02 0 v
  | .ldm v => packWord 0x02 1 v
  | .ldi v => packWord 0x02 2 v
  | .ldx v => packWord 0x02 3 v
  | .ldr v => packWord 0x03 0 v
  | .mov => packWord 0x04 0 0
  | .subDirect v => packWord 0x05 0 v
  | .subImmediate v => packWord 0x05 1 v
  | .sto v => packWord 0x06 0 v
  | .addDirect v => packWord 0x07 0 v
  | .addImmediate v => packWord 0x07 1 v
  | .incIx => packWord 0x08 0 0
  | .incAcc => packWord 0x08 1 0
  | .decIx => packWord 0x09 0 0
  | .decAcc => packWord 0x09 1 0
  | .lsl v => packWord 0x0A 0 v
  | .lsr v => packWord 0x0B 0 v
  | .xorDirect v => packWord 0x0C 0 v
  | .xorImmediate v => packWord 0x0C 1 v
  | .orDirect v => packWord 0x0D 0 v
  | .orImmediate v => packWord 0x0D 1 v
  | .cmpDirect v => packWord 0x0E 0 v
  | .cmpImmediate v => packWord 0x0E 1 v
  | .jpeDirect v => packWord 0x0F 0 v
  | .jpeImmediate v => packWord 0x0F 1 v
  | .jpnDirect v => packWord 0x10 0 v
  | .jpnImmediate v => packWord 0x10 1 v
  | .endRun => packWord 0x11 0 0

/-- The four bytes of a word, most significant first (rules R64, R92; decisions D1, D28). -/
def bytesOfWord (w : InstrWord) : List Byte :=
  [w.extractLsb' 24 8, w.extractLsb' 16 8, w.extractLsb' 8 8, w.extractLsb' 0 8]

/-- The bytes of an instruction. -/
def encodeBytes (i : Instr) : List Byte := bytesOfWord (encode i)

/-- Decode the instruction at the head of a byte sequence: four bytes, most significant first; answer what is left
after it (rules R91, R92). -/
def decodeBytes : List Byte → Except DecodeError (Instr × List Byte)
  | b3 :: b2 :: b1 :: b0 :: rest =>
    match decode (b3 ++ b2 ++ b1 ++ b0) with
    | .ok i => .ok (i, rest)
    | .error e => .error e
  | _ => .error .truncated

/-- The word with bits `w`, as the opcode table numbers them: an instruction is one 32-bit word, so bit 0 of the
table is bit 0 of the word; bits from `nbits` on are 0. -/
def tableWord (nbits w : Nat) : InstrWord := BitVec.ofNat 32 (w % 2 ^ nbits)

/-- The instruction the decoder reads from the word laid out as bytes (rule R92). -/
def decodeTableWord (nbits w : Nat) : Option Instr :=
  match decodeBytes (bytesOfWord (tableWord nbits w)) with
  | .ok (i, _) => some i
  | .error _ => none

/-- One row of the opcode table: its match and mask (rule R88). -/
structure TableRow where
  pattern : InstrWord
  mask : InstrWord
  deriving DecidableEq, Repr

/-- The rows without operand: format NOOPR of rule R88. -/
def tableBare : List TableRow :=
  [⟨0x00000000, 0xFFFFFFFF⟩, ⟨0x01000000, 0xFFFFFFFF⟩, ⟨0x01010000, 0xFFFFFFFF⟩, ⟨0x04000000, 0xFFFFFFFF⟩,
   ⟨0x08000000, 0xFFFFFFFF⟩, ⟨0x08010000, 0xFFFFFFFF⟩, ⟨0x09000000, 0xFFFFFFFF⟩, ⟨0x09010000, 0xFFFFFFFF⟩,
   ⟨0x11000000, 0xFFFFFFFF⟩]

/-- The rows with a 16-bit operand: format OPR16 of rule R88. -/
def tableOperand : List TableRow :=
  [⟨0x02000000, 0xFFFF0000⟩, ⟨0x02010000, 0xFFFF0000⟩, ⟨0x02020000, 0xFFFF0000⟩, ⟨0x02030000, 0xFFFF0000⟩,
   ⟨0x03000000, 0xFFFF0000⟩, ⟨0x05000000, 0xFFFF0000⟩, ⟨0x05010000, 0xFFFF0000⟩, ⟨0x06000000, 0xFFFF0000⟩,
   ⟨0x07000000, 0xFFFF0000⟩, ⟨0x07010000, 0xFFFF0000⟩, ⟨0x0A000000, 0xFFFF0000⟩, ⟨0x0B000000, 0xFFFF0000⟩] ++
  [⟨0x0C000000, 0xFFFF0000⟩, ⟨0x0C010000, 0xFFFF0000⟩, ⟨0x0D000000, 0xFFFF0000⟩, ⟨0x0D010000, 0xFFFF0000⟩,
   ⟨0x0E000000, 0xFFFF0000⟩, ⟨0x0E010000, 0xFFFF0000⟩, ⟨0x0F000000, 0xFFFF0000⟩, ⟨0x0F010000, 0xFFFF0000⟩,
   ⟨0x10000000, 0xFFFF0000⟩, ⟨0x10010000, 0xFFFF0000⟩]

/-- The thirty-one rows of rule R88, as the spec prints them; the decoder is not written from this list. -/
def opcodeTable : List TableRow := tableBare ++ tableOperand

/-- A word matches a row when its masked bits are the row's pattern (rule R88). -/
abbrev TableRow.Matches (r : TableRow) (w : InstrWord) : Prop := w &&& r.mask = r.pattern

/-- The abstract variant an instruction is (rules R80, R88). -/
def Instr.variant : Instr → Variant
  | .unknown => .unknown
  | .out => .io .output
  | .inp => .io .input
  | .ldd v => .load v .direct
  | .ldm v => .load v .immediate
  | .ldi v => .load v .indirect
  | .ldx v => .load v .indexed
  | .ldr v => .loadIndex v
  | .mov => .move
  | .subDirect v => .subtract v .direct
  | .subImmediate v => .subtract v .immediate
  | .sto v => .store v
  | .addDirect v => .add v .direct
  | .addImmediate v => .add v .immediate
  | .incIx => .increment false
  | .incAcc => .increment true
  | .decIx => .decrement false
  | .decAcc => .decrement true
  | .lsl v => .shiftLeft v
  | .lsr v => .shiftRight v
  | .xorDirect v => .xor v .direct
  | .xorImmediate v => .xor v .immediate
  | .orDirect v => .or v .direct
  | .orImmediate v => .or v .immediate
  | .cmpDirect v => .compare v .direct
  | .cmpImmediate v => .compare v .immediate
  | .jpeDirect v => .jumpIfZero v .direct
  | .jpeImmediate v => .jumpIfZero v .immediate
  | .jpnDirect v => .jumpIfNotZero v .direct
  | .jpnImmediate v => .jumpIfNotZero v .immediate
  | .endRun => .endRun

/-- Direct gives the first, Immediate the second, another mode none (rule R83). -/
def Mode.choose (m : Mode) (direct immediate : Instr) : Option Instr :=
  match m with
  | .direct => some direct
  | .immediate => some immediate
  | .indirect => none
  | .indexed => none

/-- The instruction an abstract variant is; none where its mode is not legal (rule R83). -/
def Variant.instr : Variant → Option Instr
  | .io .input => some .inp
  | .io .output => some .out
  | .load v .direct => some (.ldd v)
  | .load v .immediate => some (.ldm v)
  | .load v .indirect => some (.ldi v)
  | .load v .indexed => some (.ldx v)
  | .loadIndex v => some (.ldr v)
  | .move => some .mov
  | .subtract v m => m.choose (.subDirect v) (.subImmediate v)
  | .store v => some (.sto v)
  | .add v m => m.choose (.addDirect v) (.addImmediate v)
  | .increment targetIsAcc => some (if targetIsAcc then .incAcc else .incIx)
  | .decrement targetIsAcc => some (if targetIsAcc then .decAcc else .decIx)
  | .shiftLeft c => some (.lsl c)
  | .shiftRight c => some (.lsr c)
  | .xor v m => m.choose (.xorDirect v) (.xorImmediate v)
  | .or v m => m.choose (.orDirect v) (.orImmediate v)
  | .compare v m => m.choose (.cmpDirect v) (.cmpImmediate v)
  | .jumpIfZero v m => m.choose (.jpeDirect v) (.jpeImmediate v)
  | .jumpIfNotZero v m => m.choose (.jpnDirect v) (.jpnImmediate v)
  | .endRun => some .endRun
  | .unknown => some .unknown

end Sys2Proof
end

