-- ==== Sys2Proof/Machine/State.lean ====
section
/-! DEFINITION. The state of the machine as plain data, its reset value, and the reasons a step can stop. -/

namespace Sys2Proof.Machine

/-- The run state (rule R31). -/
inductive RunState where
  | running
  | halted
  | aborted
  | stopped
  deriving DecidableEq, Repr

/-- The kinds of diagnostic (rule R195, codes 1 to 6). Only the first two occur while the machine runs. -/
inductive DiagKind where
  | fetchPastEnd
  | unknownInstruction
  | malformedImmediate
  | unresolvedIdentifier
  | literalOutOfRange
  | missingOperand
  deriving DecidableEq, Repr

/-- A diagnostic record: its kind and one 16-bit number (rule R34, decision D18). -/
structure Diag where
  kind : DiagKind
  info : Word
  deriving DecidableEq, Repr

/-- What the control-input collaborator supplies at a control point (rule R203). -/
inductive Command where
  /-- Step: proceed to the next instruction. -/
  | step
  /-- Continue: stop blocking for the remainder of the run. -/
  | cont
  /-- Quit: end the loop. -/
  | quit
  /-- Anything else: no state change, the driver prompts again. -/
  | unrecognised
  deriving DecidableEq, Repr

/-- The flag register: four independent one-bit flags (rule R25). No instruction reads or writes it whole. -/
structure Flags where
  z : Bool
  n : Bool
  v : Bool
  c : Bool
  deriving DecidableEq, Repr

/-- One cell of the store: a physical index and its 16-bit content (rules R50, R52). -/
abbrev MemCell := Nat × Word

/-- The data store (rules R32, R50, R52): the cells that do not hold 0, by rising physical index. -/
abbrev Memory := List MemCell

/-- The whole state (10_state.md, opening tuple), with the parameters of the run beside it. -/
structure State where
  /-- The parameters of rule R6: PROG, NUM_VARS, MIN_ADDR, INPUT and the two settings. No step writes them. -/
  params : Params
  /-- ACC, the accumulator (rule R20). -/
  acc : Word
  /-- IX, the index register (rule R21). -/
  ix : Word
  /-- PC, the index of the next instruction (rule R22). -/
  pc : Word
  /-- Z, N, V, C (rules R25 to R29). -/
  flags : Flags
  /-- The `done` latch (rule R30). -/
  done : Bool
  /-- The run state (rule R31). -/
  runState : RunState
  /-- The data store (rule R32). -/
  store : Memory
  /-- The position in INPUT (rule R33). -/
  inputPos : Nat
  /-- The output history, oldest byte first (rule R34). -/
  output : List Byte
  /-- The diagnostic history, oldest record first (rule R34). -/
  diags : List Diag
  /-- The continue latch of the Execution Driver (rules R37, R203). -/
  continueLatch : Bool
  /-- CTRL, the control commands not yet read, next one first (rules R6, R203). -/
  ctrl : List Command
  /-- The driver waits for a control command between two instructions (rule R203; log entry 10). -/
  awaitingCommand : Bool
  deriving DecidableEq, Repr

/-- Where no step is enabled. The spec calls each of these no step, not an error: the outcome type has no other arm
for it (log entry 8). All are safe: the model stops and gives no state. -/
inductive Fault where
  /-- Raised by `step` in run state Halted: "no further instructions execute" (rules R30, R31). Safe. -/
  | runHalted
  /-- Raised by `step` in run state Aborted, terminal after FetchPastEnd (rules R31, R191). Safe. -/
  | runAborted
  /-- Raised by `step` in run state Stopped, terminal after Quit (rules R31, R203). Safe. -/
  | runStopped
  /-- Raised by IN when INPUT is exhausted: the machine is blocked, PC still at the IN (rules R24, R180). Safe. -/
  | blockedOnInput
  /-- Raised by `step` at a control point with CTRL exhausted and the latch 0 (rule R203). Safe. -/
  | blockedOnCommand
  deriving DecidableEq, Repr

/-- Where the spec gives the program no meaning. -/
inductive Refusal where
  /-- Raised by `exec` for an instruction without a meaning; there is none such here. Safe. -/
  | notModelled (mnemonic : String)
  /-- Raised by `step` on a reserved word, and by `boot` for a program that holds one (rule R89). Safe. -/
  | reservedEncoding (word : InstrWord)
  /-- Raised by `step` and `boot` when PROG_LEN exceeds 65535 (rules R6, R23). Safe. -/
  | programTooLong
  /-- Raised by LSL and LSR, and by `boot`, for a count of 16 or more under `SHIFT_OVERWIDTH = refuse`
  (rule R166). Safe. -/
  | shiftOverwidth (count : Word)
  deriving DecidableEq, Repr

/-- What a meaning answers. -/
abbrev Result := Host.Outcome State Fault Refusal

/-- All four flags 0 (rule R25 under `RESET_ZERO`). -/
def Flags.zero : Flags := { z := false, n := false, v := false, c := false }

/-- The state after reset (rules R221 and the table of 10_state.md section 6), `RESET_ZERO` true, with nothing
supplied from outside (log entry 3). -/
def State.reset : State :=
  { params := Params.unsupplied
    acc := 0
    ix := 0
    pc := 0
    flags := Flags.zero
    done := false
    runState := .running
    store := []
    inputPos := 0
    output := []
    diags := []
    continueLatch := false
    ctrl := []
    awaitingCommand := false }

end Sys2Proof.Machine
end

