-- ==== Sys2Proof/Machine/Ops.lean ====
section
/-! DEFINITION. The named operations over memory, registers and streams: every meaning is written over these. -/

namespace Sys2Proof.Machine

/-! ## The store -/

/-- The cell at a physical index: 0 wherever nothing is listed (rules R52, R57). -/
def Memory.read : Memory → Nat → Word
  | [], _ => 0
  | (k, w) :: rest, i => if k = i then w else Memory.read rest i

/-- Put a cell at the head unless it holds what an unlisted index reads as. -/
def Memory.keep (i : Nat) (w : Word) (rest : Memory) : Memory :=
  if w = 0 then rest else (i, w) :: rest

/-- Write one cell and leave every other as it was (rule R59), keeping the canonical form. -/
def Memory.write : Memory → Nat → Word → Memory
  | [], i, w => Memory.keep i w []
  | (k, old) :: rest, i, w =>
    if i < k then Memory.keep i w ((k, old) :: rest)
    else if i = k then Memory.keep i w rest
    else (k, old) :: Memory.write rest i w

/-- The canonical form: indices strictly rising, and no listed cell holds 0 (log entry 5). -/
abbrev Memory.wf (m : Memory) : Prop :=
  m.Pairwise (fun a b => a.1 < b.1) ∧ ∀ cell ∈ m, cell.2 ≠ 0

/-- The address translation of rule R53: variable region, upper region, and otherwise the address itself
(rule R54, decision D5). -/
def phys (p : Params) (a : Word) : Nat :=
  if a < p.numVars then a.toNat
  else
    match p.minAddr with
    | none => a.toNat
    | some m =>
      if Config.threshold ≤ m ∧ m ≤ (a.toNat : Int) then ((a.toNat : Int) - m + (p.numVars.toNat : Int)).toNat
      else a.toNat

/-- `MemRead(a, 1)` (rule R58). -/
def memRead (s : State) (a : Word) : Word := s.store.read (phys s.params a)

/-- `MemWrite(a, 1, v)` (rule R59). -/
def memWrite (s : State) (a : Word) (v : Word) : State :=
  { s with store := s.store.write (phys s.params a) v }

/-! ## Registers -/

/-- `ACC <- v`. -/
def State.setAcc (s : State) (v : Word) : State := { s with acc := v }

/-- `IX <- v`. -/
def State.setIx (s : State) (v : Word) : State := { s with ix := v }

/-- `PC <- v`. -/
def State.setPc (s : State) (v : Word) : State := { s with pc := v }

/-- Write the flag register. -/
def State.setFlags (s : State) (f : Flags) : State := { s with flags := f }

/-- `PC <- PC + 1`, before the instruction's own effects (rules R22, R24). -/
def State.advancePc (s : State) : State := s.setPc (s.pc + 1)

/-! ## Streams -/

/-- The byte at the input position, if INPUT has one there (rule R33). -/
def inputByte (s : State) : Option Byte := s.params.input[s.inputPos]?

/-- Advance the input position by one (rule R33). -/
def State.consumeInput (s : State) : State := { s with inputPos := s.inputPos + 1 }

/-- `Out(b)`: append to the output history (rule R34). -/
def State.emit (s : State) (b : Byte) : State := { s with output := s.output ++ [b] }

/-- `Diag(kind, info)`: append to the diagnostic history (rule R34). -/
def State.diagnose (s : State) (kind : DiagKind) (info : Word) : State :=
  { s with diags := s.diags ++ [{ kind := kind, info := info }] }

/-! ## Ending a run -/

/-- `raise F(info)` (rule R191): the diagnostic is recorded, the run is Aborted, nothing else changes. There is no
handler, no saved register and no return (rules R190, R198, R199). -/
def State.raise (s : State) (kind : DiagKind) (info : Word) : State :=
  { s.diagnose kind info with runState := .aborted }

/-- What END does: `done <- 1`, Halted (rule R182). -/
def State.finish (s : State) : State := { s with done := true, runState := .halted }

end Sys2Proof.Machine
end

