-- ==== Sys2Proof/Machine/Control.lean ====
section
/-! DEFINITION. The control point of the Execution Driver (rule R203). -/

namespace Sys2Proof.Machine

/-- The next recognised command of CTRL and what is left after it; unrecognised ones are read and dropped, since the
driver prompts again (rule R203). -/
def readCommand : List Command → Option (Command × List Command)
  | [] => none
  | .unrecognised :: rest => readCommand rest
  | .step :: rest => some (.step, rest)
  | .cont :: rest => some (.cont, rest)
  | .quit :: rest => some (.quit, rest)

/-- What a command does (rule R203): Step nothing, Continue sets the latch, Quit stops the run unless it is already
Halted (decision D29). -/
def applyCommand (s : State) : Command → State
  | .step => s
  | .cont => { s with continueLatch := true }
  | .quit => { s with runState := if s.runState = .halted then .halted else .stopped }
  | .unrecognised => s

/-- The control point after an executed instruction (rule R203): with the latch 0 one command is read and applied;
with CTRL exhausted the driver is left waiting, between instructions, unless the run is over. -/
def controlPoint (s : State) : State :=
  if s.continueLatch then { s with awaitingCommand := false }
  else
    match readCommand s.ctrl with
    | some (cmd, rest) => applyCommand { s with ctrl := rest, awaitingCommand := false } cmd
    | none => { s with ctrl := [], awaitingCommand := decide (s.runState = .running) }

/-- The control point can be left: the latch is 1 or a recognised command is there. -/
def commandAvailable (s : State) : Bool := s.continueLatch || (readCommand s.ctrl).isSome

/-- One line of the line-based protocol (rule R203): an empty line is Step, `q` or `Q` Quit, `c` or `C` Continue. -/
def Command.ofLine (line : List Char) : Command :=
  if line = [] then .step
  else if line = ['q'] ∨ line = ['Q'] then .quit
  else if line = ['c'] ∨ line = ['C'] then .cont
  else .unrecognised

end Sys2Proof.Machine
end

