-- ==== Sys2Proof/Machine/Flags.lean ====
section
/-! DEFINITION. Every flag computation of the machine: Z and N from a value, the checked arithmetic, the shifts' carry,
and the packed view of the register. -/

namespace Sys2Proof.Machine

/-- `wrap16(n)`: the integer modulo 2^16, read as sixteen bits (rules R8, R140). -/
def wrap16 (n : Int) : Word := BitVec.ofInt 16 n

/-- Z of a value: 1 iff it is 0 (rule R26). -/
def zeroFlag (t : Word) : Bool := decide (t = 0)

/-- N of a value: 1 iff it is negative (rule R27). -/
def negativeFlag (t : Word) : Bool := decide (t.toInt < 0)

/-- Z and N written from a value; V and C kept (rules R26 to R29, decision D12). -/
def Flags.withZN (f : Flags) (t : Word) : Flags :=
  { f with z := zeroFlag t, n := negativeFlag t }

/-- C written; the other flags kept (rules R29, R164, R165). -/
def Flags.withC (f : Flags) (carry : Bool) : Flags := { f with c := carry }

/-- The two operations of the checked arithmetic (rule R141). -/
inductive ArithOp where
  | add
  | sub
  deriving DecidableEq, Repr

/-- The exact result over the integers (rule R141). -/
def ArithOp.exact (op : ArithOp) (a b : Int) : Int :=
  match op with
  | .add => a + b
  | .sub => a - b

/-- What the checked arithmetic answers: the wrapped result and the four flags (rule R141). -/
structure ArithResult where
  res : Word
  flags : Flags
  deriving DecidableEq, Repr

/-- The signed 16-bit operation overflowed (rules R28, R141). -/
def overflows (r : Int) : Bool := decide (32767 < r ∨ r < -32768)

/-- `arith(a, op, b)` of rule R141: C is a copy of V (rule R29). -/
def arith (op : ArithOp) (a b : Word) : ArithResult :=
  let r := op.exact a.toInt b.toInt
  { res := wrap16 r
    flags := { z := zeroFlag (wrap16 r), n := negativeFlag (wrap16 r), v := overflows r, c := overflows r } }

/-- The carry of LSL: bit 15 of ACC before the shift, whatever the count (rules R164, R166; decision D15). -/
def carryLeft (a : Word) : Bool := a.getLsbD 15

/-- The carry of LSR: bit 0 of ACC before the shift, whatever the count (rules R165, R166; decision D15). -/
def carryRight (a : Word) : Bool := a.getLsbD 0

/-- The flag register as four bits, `C ++ V ++ N ++ Z` (rule R25, decision D11): what the renderer sees. -/
def Flags.packed (f : Flags) : BitVec 4 :=
  BitVec.ofBool f.c ++ BitVec.ofBool f.v ++ BitVec.ofBool f.n ++ BitVec.ofBool f.z

/-- ACC takes a value and Z, N follow it: loads, IN, XOR, OR. -/
def State.loadAcc (s : State) (t : Word) : State := (s.setAcc t).setFlags (s.flags.withZN t)

/-- ACC takes the result of the checked arithmetic, and all four flags with it. -/
def State.commitArith (s : State) (r : ArithResult) : State := (s.setAcc r.res).setFlags r.flags

end Sys2Proof.Machine
end

