-- ==== Sys2Proof/Machine/Operands.lean ====
section
/-! DEFINITION. The four addressing modes, their effective addresses, and the shift count. -/

namespace Sys2Proof.Machine

/-- The effective address of Indirect: the inner cell's pattern (rule R61, decision D6). -/
def indirectAddress (s : State) (value : Word) : Word := memRead s value

/-- The effective address of Indexed: `(value + IX) mod 65536`, `value` unsigned and IX signed
(rule R61, decision D6). -/
def indexedAddress (s : State) (value : Word) : Word := wrap16 ((value.toNat : Int) + s.ix.toInt)

/-- `operand(value, mode)` (rule R62). -/
def operand (s : State) (value : Word) : Mode → Word
  | .immediate => value
  | .direct => memRead s value
  | .indirect => memRead s (indirectAddress s value)
  | .indexed => memRead s (indexedAddress s value)

/-- The number of places a shift moves ACC by (rule R166, decision D14): the count itself below 16; from 16 on,
nothing under `refuse`, sixteen places (which leave 0) under `zero`, the count modulo 16 under `mod16`. -/
def shiftPlaces (setting : ShiftOverwidth) (count : Word) : Option Nat :=
  if count.toNat < 16 then some count.toNat
  else
    match setting with
    | .refuse => none
    | .zero => some 16
    | .mod16 => some (count.toNat % 16)

/-- `(pat(a) * 2^k) mod 65536` (rule R164). -/
def shiftLeft (a : Word) (places : Nat) : Word := BitVec.ofNat 16 (a.toNat * 2 ^ places)

/-- `floor(pat(a) / 2^k)` (rule R165). -/
def shiftRight (a : Word) (places : Nat) : Word := BitVec.ofNat 16 (a.toNat / 2 ^ places)

end Sys2Proof.Machine
end

