-- ==== Sys2Proof/Machine/Arithmetic.lean ====
section
/-! DEFINITION. The meanings of ADD, SUB, INC, DEC and CMP (41_arithmetic_compare.md). -/

namespace Sys2Proof.Machine

/-- ADD Direct, rule R143. -/
def execAddDirect (address : Word) (s : State) : Result :=
  .next (s.commitArith (arith .add s.acc (operand s address .direct)))

/-- ADD Immediate, rule R144. -/
def execAddImmediate (value : Word) (s : State) : Result :=
  .next (s.commitArith (arith .add s.acc (operand s value .immediate)))

/-- SUB Direct, rule R145. -/
def execSubDirect (address : Word) (s : State) : Result :=
  .next (s.commitArith (arith .sub s.acc (operand s address .direct)))

/-- SUB Immediate, rule R146. -/
def execSubImmediate (value : Word) (s : State) : Result :=
  .next (s.commitArith (arith .sub s.acc (operand s value .immediate)))

/-- INC ACC, rule R147. -/
def execIncAcc (s : State) : Result := .next (s.commitArith (arith .add s.acc 1))

/-- DEC ACC, rule R148. -/
def execDecAcc (s : State) : Result := .next (s.commitArith (arith .sub s.acc 1))

/-- INC IX, rule R149: plain wrapping, no flag. -/
def execIncIx (s : State) : Result := .next (s.setIx (wrap16 (s.ix.toInt + 1)))

/-- DEC IX, rule R150: plain wrapping, no flag. -/
def execDecIx (s : State) : Result := .next (s.setIx (wrap16 (s.ix.toInt - 1)))

/-- CMP Direct, rule R151: the difference is discarded, ACC kept. -/
def execCmpDirect (address : Word) (s : State) : Result :=
  .next (s.setFlags (arith .sub s.acc (operand s address .direct)).flags)

/-- CMP Immediate, rule R152. -/
def execCmpImmediate (value : Word) (s : State) : Result :=
  .next (s.setFlags (arith .sub s.acc (operand s value .immediate)).flags)

end Sys2Proof.Machine
end

