-- ==== Sys2Proof/Machine/IoSystem.lean ====
section
/-! DEFINITION. The meanings of IN, OUT, END and UNKNOWN (44_io_system.md). -/

namespace Sys2Proof.Machine

/-- `zext_8(b)` as a word (rule R180, decision D16). -/
def widenByte (b : Byte) : Word := b.setWidth 16

/-- `pat(ACC)[7:0]` (rule R181). -/
def lowByte (w : Word) : Byte := w.setWidth 8

/-- IN, rule R180: with INPUT exhausted there is no step, the machine is blocked (decision D17). -/
def execInp (s : State) : Result :=
  match inputByte s with
  | none => .fault .blockedOnInput
  | some b => .next (s.consumeInput.loadAcc (widenByte b))

/-- OUT, rule R181. -/
def execOut (s : State) : Result := .next (s.emit (lowByte s.acc))

/-- END, rule R182. -/
def execEndRun (s : State) : Result := .next s.finish

/-- UNKNOWN, rule R183: the diagnostic names the index the instruction was fetched from. -/
def execUnknown (s : State) : Result := .next (s.diagnose .unknownInstruction (s.pc - 1))

end Sys2Proof.Machine
end

