-- ==== Sys2Proof/Machine/Jump.lean ====
section
/-! DEFINITION. The meanings of JPE and JPN (43_jump.md). The target is the operand field itself under either tag;
memory is never read (rule R174). -/

namespace Sys2Proof.Machine

/-- Jump to an instruction index when Z is the wanted polarity, else leave PC as it is (rule R174). -/
def State.jumpIf (s : State) (polarity : Bool) (target : Word) : State :=
  if s.flags.z = polarity then s.setPc target else s

/-- JPE Direct, rule R170. -/
def execJpeDirect (target : Word) (s : State) : Result := .next (s.jumpIf true target)

/-- JPE Immediate, rule R171. -/
def execJpeImmediate (target : Word) (s : State) : Result := .next (s.jumpIf true target)

/-- JPN Direct, rule R172. -/
def execJpnDirect (target : Word) (s : State) : Result := .next (s.jumpIf false target)

/-- JPN Immediate, rule R173. -/
def execJpnImmediate (target : Word) (s : State) : Result := .next (s.jumpIf false target)

end Sys2Proof.Machine
end

