-- ==== Sys2Proof/Machine/LoadStore.lean ====
section
/-! DEFINITION. The meanings of LDD, LDM, LDI, LDX, LDR, MOV and STO (40_load_store.md). In every meaning PC already
holds the index of the next instruction. -/

namespace Sys2Proof.Machine

/-- LDD, rule R130. -/
def execLdd (address : Word) (s : State) : Result := .next (s.loadAcc (operand s address .direct))

/-- LDM, rule R131. -/
def execLdm (value : Word) (s : State) : Result := .next (s.loadAcc (operand s value .immediate))

/-- LDI, rule R132. -/
def execLdi (pointer : Word) (s : State) : Result := .next (s.loadAcc (operand s pointer .indirect))

/-- LDX, rule R133. -/
def execLdx (base : Word) (s : State) : Result := .next (s.loadAcc (operand s base .indexed))

/-- LDR, rule R134. -/
def execLdr (value : Word) (s : State) : Result := .next (s.setIx value)

/-- MOV, rule R135 (no flag: decision D13). -/
def execMov (s : State) : Result := .next (s.setIx s.acc)

/-- STO, rule R136. -/
def execSto (address : Word) (s : State) : Result := .next (memWrite s address s.acc)

end Sys2Proof.Machine
end

