-- ==== Sys2Proof/Machine/Logic.lean ====
section
/-! DEFINITION. The meanings of XOR, OR, LSL and LSR (42_logical_shift.md). -/

namespace Sys2Proof.Machine

/-- XOR Direct, rule R160. -/
def execXorDirect (address : Word) (s : State) : Result :=
  .next (s.loadAcc (s.acc ^^^ operand s address .direct))

/-- XOR Immediate, rule R161. -/
def execXorImmediate (value : Word) (s : State) : Result :=
  .next (s.loadAcc (s.acc ^^^ operand s value .immediate))

/-- OR Direct, rule R162. -/
def execOrDirect (address : Word) (s : State) : Result :=
  .next (s.loadAcc (s.acc ||| operand s address .direct))

/-- OR Immediate, rule R163. -/
def execOrImmediate (value : Word) (s : State) : Result :=
  .next (s.loadAcc (s.acc ||| operand s value .immediate))

/-- LSL, rules R164 and R166. -/
def execLsl (count : Word) (s : State) : Result :=
  match shiftPlaces s.params.shiftOverwidth count with
  | none => .refused (.shiftOverwidth count)
  | some places => .next ((s.setAcc (shiftLeft s.acc places)).setFlags (s.flags.withC (carryLeft s.acc)))

/-- LSR, rules R165 and R166. -/
def execLsr (count : Word) (s : State) : Result :=
  match shiftPlaces s.params.shiftOverwidth count with
  | none => .refused (.shiftOverwidth count)
  | some places => .next ((s.setAcc (shiftRight s.acc places)).setFlags (s.flags.withC (carryRight s.acc)))

end Sys2Proof.Machine
end

