-- ==== Sys2Proof/Machine/Dispatch.lean ====
section
/-! DEFINITION. `execute(instr)` of rule R24: one arm per instruction of the opcode table. -/

namespace Sys2Proof.Machine

/-- The meaning of one instruction at a state whose PC is already incremented (rules R9, R24). -/
def exec (i : Instr) (s : State) : Host.Outcome State Fault Refusal :=
  match i with
  | .unknown => Sys2Proof.Machine.execUnknown s
  | .out => Sys2Proof.Machine.execOut s
  | .inp => Sys2Proof.Machine.execInp s
  | .ldd address => Sys2Proof.Machine.execLdd address s
  | .ldm value => Sys2Proof.Machine.execLdm value s
  | .ldi pointer => Sys2Proof.Machine.execLdi pointer s
  | .ldx base => Sys2Proof.Machine.execLdx base s
  | .ldr value => Sys2Proof.Machine.execLdr value s
  | .mov => Sys2Proof.Machine.execMov s
  | .subDirect address => Sys2Proof.Machine.execSubDirect address s
  | .subImmediate value => Sys2Proof.Machine.execSubImmediate value s
  | .sto address => Sys2Proof.Machine.execSto address s
  | .addDirect address => Sys2Proof.Machine.execAddDirect address s
  | .addImmediate value => Sys2Proof.Machine.execAddImmediate value s
  | .incIx => Sys2Proof.Machine.execIncIx s
  | .incAcc => Sys2Proof.Machine.execIncAcc s
  | .decIx => Sys2Proof.Machine.execDecIx s
  | .decAcc => Sys2Proof.Machine.execDecAcc s
  | .lsl count => Sys2Proof.Machine.execLsl count s
  | .lsr count => Sys2Proof.Machine.execLsr count s
  | .xorDirect address => Sys2Proof.Machine.execXorDirect address s
  | .xorImmediate value => Sys2Proof.Machine.execXorImmediate value s
  | .orDirect address => Sys2Proof.Machine.execOrDirect address s
  | .orImmediate value => Sys2Proof.Machine.execOrImmediate value s
  | .cmpDirect address => Sys2Proof.Machine.execCmpDirect address s
  | .cmpImmediate value => Sys2Proof.Machine.execCmpImmediate value s
  | .jpeDirect target => Sys2Proof.Machine.execJpeDirect target s
  | .jpeImmediate target => Sys2Proof.Machine.execJpeImmediate target s
  | .jpnDirect target => Sys2Proof.Machine.execJpnDirect target s
  | .jpnImmediate target => Sys2Proof.Machine.execJpnImmediate target s
  | .endRun => Sys2Proof.Machine.execEndRun s

end Sys2Proof.Machine
end

