-- ==== Sys2Proof/Machine/Driver.lean ====
section
/-! DEFINITION. The Execution Driver's loop body (rule R24): the fetch, the execution of the decoded word, the control
point, and the placing of a word where the next step fetches it. -/

namespace Sys2Proof.Machine

/-- `PROG[PC]`, if PC is below PROG_LEN (rules R22, R24, R63). -/
def fetch (s : State) : Option InstrWord := s.params.prog[s.pc.toNat]?

/-- The largest PROG_LEN (rules R6, R23; decision D9). -/
abbrev maxProgLen : Nat := 65535

/-- After an executed instruction comes the control point; a stop has none. -/
def atControlPoint : Result → Result
  | .next s => .next (controlPoint s)
  | .fault f => .fault f
  | .refused r => .refused r

/-- Execute a fetched word: PC is incremented, the instruction takes effect, the control point follows (rule R24).
A reserved word is refused (rule R89). -/
def executeWord (w : InstrWord) (s : State) : Result :=
  match decode w with
  | .error _ => .refused (.reservedEncoding w)
  | .ok i => atControlPoint (exec i s.advancePc)

/-- One iteration of the loop in run state Running, between instructions (rule R24): FetchPastEnd when PC is past the
end (rule R192), else the instruction at PC. -/
def iterate (s : State) : Result :=
  if maxProgLen < s.params.prog.length then .refused .programTooLong
  else
    match fetch s with
    | none => .next (s.raise .fetchPastEnd s.pc)
    | some w => executeWord w s

/-- A driver left waiting at a control point completes it when a command is there, and is blocked otherwise
(rule R203). -/
def resumeControl (s : State) : Result :=
  if commandAvailable s then .next (controlPoint s) else .fault .blockedOnCommand

/-- One step of the machine (rules R24, R31): enabled only when Running. -/
def driverStep (s : State) : Result :=
  match s.runState with
  | .halted => .fault .runHalted
  | .aborted => .fault .runAborted
  | .stopped => .fault .runStopped
  | .running => if s.awaitingCommand then resumeControl s else iterate s

/-- The list with `x` at position `i`; positions up to it that the list lacks hold `fill`. -/
def placeAt {α : Type} (fill x : α) : Nat → List α → List α
  | 0, [] => [x]
  | 0, _ :: rest => x :: rest
  | i + 1, [] => fill :: placeAt fill x i []
  | i + 1, y :: rest => y :: placeAt fill x i rest

/-- INPUT with a byte at the position IN reads next: as it is where it has one, else a free byte put there
(log entry 12). -/
def supplyInput (s : State) : List Byte :=
  match inputByte s with
  | some _ => s.params.input
  | none => placeAt 0 (Config.environmentByte s.inputPos) s.inputPos s.params.input

/-- The word is IN. -/
def isInputWord (w : InstrWord) : Bool :=
  match decode w with
  | .ok i => decide (i = .inp)
  | .error _ => false

/-- `s` with the word at `PROG[PC]` and the driver about to fetch it; an IN word finds a byte (log entry 12). -/
def placeWord (s : State) (w : InstrWord) : State :=
  { s with
    params := { s.params with
      prog := placeAt 0 w s.pc.toNat s.params.prog
      input := if isInputWord w then supplyInput s else s.params.input }
    done := false
    runState := .running
    awaitingCommand := false }

end Sys2Proof.Machine
end

