-- ==== Sys2Proof/Machine/Step.lean ====
section
/-! DEFINITION. The step function, and the placing of a table word where step fetches next. -/

namespace Sys2Proof.Machine

/-- One step of the machine (rule R24). -/
def step (s : State) : Host.Outcome State Fault Refusal := driverStep s

/-- `s` with the table word where `step` fetches its next instruction (log entry 12). -/
def State.withFetchWord (s : State) (nbits w : Nat) : State := placeWord s (tableWord nbits w)

end Sys2Proof.Machine
end

