-- ==== Sys2Proof/Machine/Boot.lean ====
section
/-! DEFINITION. The creation of a machine for one run (rules R220 to R223). -/

namespace Sys2Proof.Machine

/-- What makes a word unfit for a program (rule R223 (2)): a reserved encoding (rule R89), or a shift by 16 or more
under `SHIFT_OVERWIDTH = refuse` (rule R166). -/
def wordProblem (setting : ShiftOverwidth) (w : InstrWord) : Option Refusal :=
  match decode w with
  | .error _ => some (.reservedEncoding w)
  | .ok i => if i.wellFormed setting then none else some (.shiftOverwidth (i.shiftCount.getD 0))

/-- What makes a program unfit to run (rule R223 (2)), the first reason found. -/
def programProblem (p : Params) : Option Refusal :=
  if maxProgLen < p.prog.length then some .programTooLong
  else p.prog.findSome? (wordProblem p.shiftOverwidth)

/-- The flags at creation when `RESET_ZERO` is false: free values (log entry 2). -/
def unsetFlags : Flags :=
  { z := Config.unsetFlag 0, n := Config.unsetFlag 1, v := Config.unsetFlag 2, c := Config.unsetFlag 3 }

/-- The machine created for a run with these parameters and commands (rules R220, R221). -/
def State.created (p : Params) (commands : List Command) : State :=
  { State.reset with
    params := p
    ctrl := commands
    acc := if p.resetZero then State.reset.acc else Config.unsetAcc
    ix := if p.resetZero then State.reset.ix else Config.unsetIx
    flags := if p.resetZero then State.reset.flags else unsetFlags }

/-- Boot (rule R223): a program that holds a reserved encoding, an ill-formed shift or more than 65535 instructions
is refused before the first step. -/
def boot (p : Params) (commands : List Command) : Except Refusal State :=
  match programProblem p with
  | some r => .error r
  | none => .ok (State.created p commands)

end Sys2Proof.Machine
end

