-- ==== Sys2Proof/Machine/SymbolTable.lean ====
section
/-! DEFINITION. The assembler's Symbol Table (rules R97, R104 to R107). It is no state of the machine (rule R38). -/

namespace Sys2Proof.Machine

/-- Source text, as characters. -/
abbrev Text := List Char

/-- Identifiers and their addresses, labels and variables in one keyspace, with the counters (rules R12, R105). -/
structure SymbolTable where
  /-- Each identifier once, with its 16-bit address. -/
  entries : List (Text × Word)
  /-- The variable count; `NUM_VARS` after the last line (rule R104). -/
  varCount : Nat
  /-- The label count, without effect on execution (rule R105). -/
  labelCount : Nat
  /-- `MIN_ADDR` so far (rule R97, decision D7). -/
  minLiteral : Option Int
  /-- `MAX_ADDR` so far, which no rule of execution reads (rule R7). -/
  maxLiteral : Option Int
  deriving DecidableEq, Repr

/-- The table before the first line. -/
def SymbolTable.empty : SymbolTable :=
  { entries := [], varCount := 0, labelCount := 0, minLiteral := none, maxLiteral := none }

/-- The identifier `ACC` (rule R107). -/
def nameAcc : Text := ['A', 'C', 'C']

/-- The identifier `IX` (rule R107). -/
def nameIx : Text := ['I', 'X']

/-- The address an identifier has among the entries. -/
def lookupName : List (Text × Word) → Text → Option Word
  | [], _ => none
  | (key, address) :: rest, name => if key = name then some address else lookupName rest name

/-- Insert an entry, or overwrite the one of that name. -/
def insertName : List (Text × Word) → Text → Word → List (Text × Word)
  | [], name, address => [(name, address)]
  | (key, old) :: rest, name, address =>
    if key = name then (name, address) :: rest else (key, old) :: insertName rest name address

/-- `resolve(name)` (rules R106, R107): 0 for `ACC`, 1 for `IX`, else the table's entry; none is the
UnresolvedIdentifier of the caller. -/
def SymbolTable.resolve (t : SymbolTable) (name : Text) : Option Word :=
  if name = nameAcc then some 0
  else if name = nameIx then some 1
  else lookupName t.entries name

/-- `register_variable(name)` (rule R104): nothing where `resolve` already answers, else the next variable index. -/
def SymbolTable.registerVariable (t : SymbolTable) (name : Text) : SymbolTable :=
  match t.resolve name with
  | some _ => t
  | none =>
    { t with
      entries := insertName t.entries name (BitVec.ofNat 16 t.varCount)
      varCount := t.varCount + 1 }

/-- `register_label(name, index)` (rule R105): inserts or overwrites unconditionally. DESIGN CHOICE (log entry 33): a
label `ACC` or `IX`, which rule R107 says is never inserted, is inserted and counted like any other; `resolve` never
sees it. -/
def SymbolTable.registerLabel (t : SymbolTable) (name : Text) (index : Word) : SymbolTable :=
  { t with entries := insertName t.entries name index, labelCount := t.labelCount + 1 }

/-- The smaller of a bound and a literal; the literal where there is no bound yet (rule R97). -/
def lowerBound (bound : Option Int) (n : Int) : Option Int :=
  match bound with
  | none => some n
  | some m => some (min m n)

/-- The larger of a bound and a literal (rule R97). -/
def upperBound (bound : Option Int) (n : Int) : Option Int :=
  match bound with
  | none => some n
  | some m => some (max m n)

/-- The bounds after a bare-integer literal was seen (rule R97). -/
def SymbolTable.observeLiteral (t : SymbolTable) (n : Int) : SymbolTable :=
  { t with minLiteral := lowerBound t.minLiteral n, maxLiteral := upperBound t.maxLiteral n }

end Sys2Proof.Machine
end

