-- ==== Sys2Proof/Machine/TextDecoder.lean ====
section
/-! DEFINITION. The Instruction Decoder (30_encoding.md Part C, rules R93 to R103, R117, R119, R120): from a trimmed,
comment-stripped source line and the Symbol Table to an instruction. Log entries 21 to 25 name what it fixes. -/

namespace Sys2Proof.Machine

/-! ## Characters and literals -/

/-- Blanks: space, tab, carriage return (log entry 21). -/
def isBlank (c : Char) : Bool := decide (c = ' ' ∨ c = '\t' ∨ c = '\r')

/-- Without surrounding blanks. -/
def trimText (t : Text) : Text := ((t.dropWhile isBlank).reverse.dropWhile isBlank).reverse

/-- An alphabetic character: A to Z and a to z (log entry 21). -/
def isLetter (c : Char) : Bool :=
  decide ((65 ≤ c.toNat ∧ c.toNat ≤ 90) ∨ (97 ≤ c.toNat ∧ c.toNat ≤ 122))

/-- The value of a digit of any base up to sixteen; both cases of A to F (log entry 21). -/
def digitValue (c : Char) : Option Nat :=
  if 48 ≤ c.toNat ∧ c.toNat ≤ 57 then some (c.toNat - 48)
  else if 65 ≤ c.toNat ∧ c.toNat ≤ 70 then some (c.toNat - 55)
  else if 97 ≤ c.toNat ∧ c.toNat ≤ 102 then some (c.toNat - 87)
  else none

/-- Digits of a base, appended to a number already read. -/
def parseDigitsFrom (base : Nat) : Nat → Text → Option Nat
  | n, [] => some n
  | n, c :: rest =>
    match digitValue c with
    | none => none
    | some d => if d < base then parseDigitsFrom base (n * base + d) rest else none

/-- A number written in a base: at least one digit and nothing else. -/
def parseDigits (base : Nat) : Text → Option Nat
  | [] => none
  | c :: rest => parseDigitsFrom base 0 (c :: rest)

/-- A signed integer literal: an optional sign and decimal digits (rule R97). -/
def parseInteger : Text → Option Int
  | '-' :: rest => (parseDigits 10 rest).map fun n => -(n : Int)
  | '+' :: rest => (parseDigits 10 rest).map fun n => (n : Int)
  | t => (parseDigits 10 t).map fun n => (n : Int)

/-- What follows the `#` of a literal (rule R99): `B` and binary digits, `&` and hexadecimal digits, or decimal
digits. No sign is accepted (decision D8). -/
def parseHash : Text → Option Nat
  | 'B' :: rest => parseDigits 2 rest
  | '&' :: rest => parseDigits 16 rest
  | t => parseDigits 10 t

/-! ## Operands -/

/-- The syntactic mode tag (rule R117): only Direct and Immediate can arise. -/
inductive Tag where
  | direct
  | immediate
  deriving DecidableEq, Repr

/-- The three operand classes (rule R96). -/
inductive OperandText where
  /-- Class H: the text after the `#`. -/
  | hash (rest : Text)
  /-- Class N: a bare integer. -/
  | bare (n : Int)
  /-- Class I: an identifier. -/
  | identifier (name : Text)
  deriving DecidableEq, Repr

/-- The class of an operand token, tested in the order H, N, I (rule R96). -/
def classifyOperand : Text → OperandText
  | '#' :: rest => .hash rest
  | token =>
    match parseInteger token with
    | some n => .bare n
    | none => .identifier token

/-- A resolved operand: its 16-bit value, its syntactic mode tag, and the Symbol Table after it. -/
structure OperandValue where
  value : Word
  tag : Tag
  table : SymbolTable
  deriving DecidableEq, Repr

/-- Class H (rule R99). -/
def hashOperand (t : SymbolTable) (rest : Text) : Except DiagKind OperandValue :=
  match parseHash rest with
  | none => .error .malformedImmediate
  | some n => if n ≤ 65535 then .ok ⟨BitVec.ofNat 16 n, .immediate, t⟩ else .error .literalOutOfRange

/-- Class N (rules R97, R117; decisions D8, D22): the bounds are updated, the tag is Direct. -/
def bareOperand (t : SymbolTable) (n : Int) : Except DiagKind OperandValue :=
  if -32768 ≤ n ∧ n ≤ 65535 then .ok ⟨wrap16 n, .direct, t.observeLiteral n⟩ else .error .literalOutOfRange

/-- Class I (rule R98): an unknown identifier is registered as a variable, except as the operand of a jump mnemonic,
where it is fatal (decision D24). DESIGN CHOICE (log entry 23): `ACC` and `IX`, which are never in the table and always
resolve (rule R107), are no such unknown identifier, so `JPE ACC` and `JPN IX` have the targets 0 and 1. -/
def identifierOperand (t : SymbolTable) (isJump : Bool) (name : Text) : Except DiagKind OperandValue :=
  let table := if isJump then t else t.registerVariable name
  match table.resolve name with
  | none => .error .unresolvedIdentifier
  | some address => .ok ⟨address, .direct, table⟩

/-- The operand of a line (rules R96 to R99). -/
def resolveOperand (t : SymbolTable) (isJump : Bool) (token : Text) : Except DiagKind OperandValue :=
  match classifyOperand token with
  | .hash rest => hashOperand t rest
  | .bare n => bareOperand t n
  | .identifier name => identifierOperand t isJump name

/-! ## Mnemonics -/

/-- An `L` mnemonic by the letters after the L (rules R100, R101): the shift test first, then the suffix letter; any
other is Unknown (decision D25). -/
def dispatchL (value : Word) : Text → Instr
  | 'S' :: 'L' :: _ => .lsl value
  | 'S' :: 'R' :: _ => .lsr value
  | _ :: 'D' :: _ => .ldd value
  | _ :: 'M' :: _ => .ldm value
  | _ :: 'I' :: _ => .ldi value
  | _ :: 'X' :: _ => .ldx value
  | _ :: 'R' :: _ => .ldr value
  | _ => .unknown

/-- A `J` mnemonic by the letters after the J (rules R100, R101): the third letter is the condition. -/
def dispatchJ (value : Word) (tag : Tag) : Text → Instr
  | _ :: 'E' :: _ => if tag = .direct then .jpeDirect value else .jpeImmediate value
  | _ :: 'N' :: _ => if tag = .direct then .jpnDirect value else .jpnImmediate value
  | _ => .unknown

/-- Of the two instructions of a moded variant, the one its tag selects. -/
def Tag.choose (tag : Tag) (direct immediate : Instr) : Instr :=
  match tag with
  | .direct => direct
  | .immediate => immediate

/-- Mnemonic dispatch (rule R100), upper case only (rule R119). DESIGN CHOICE (log entry 22): the letters a pattern
names must be upper case, and those its `*` stands for may be of either case, so `Add` is Add and `STo` Subtract. -/
def dispatchMnemonic (value : Word) (tag : Tag) : Text → Instr
  | 'L' :: rest => dispatchL value rest
  | 'S' :: rest => if rest = ['T', 'O'] then .sto value else tag.choose (.subDirect value) (.subImmediate value)
  | 'A' :: _ => tag.choose (.addDirect value) (.addImmediate value)
  | 'C' :: _ => tag.choose (.cmpDirect value) (.cmpImmediate value)
  | 'X' :: _ => tag.choose (.xorDirect value) (.xorImmediate value)
  | 'O' :: _ => tag.choose (.orDirect value) (.orImmediate value)
  | 'I' :: _ => if value = 0 then .incAcc else .incIx
  | 'D' :: _ => if value = 0 then .decAcc else .decIx
  | 'M' :: _ => .mov
  | 'J' :: rest => dispatchJ value tag rest
  | _ => .unknown

/-- A mnemonic that needs an operand: every one but those that yield Move or Unknown (rule R95; log entry 22). -/
def needsOperand (mnemonic : Text) : Bool :=
  decide (dispatchMnemonic 0 .direct mnemonic ≠ .mov ∧ dispatchMnemonic 0 .direct mnemonic ≠ .unknown)

/-- A `J**` mnemonic (rule R98). -/
def isJumpMnemonic : Text → Bool
  | 'J' :: _ => true
  | _ => false

/-! ## Lines -/

/-- The leading alphabetic run (rule R95). -/
def mnemonicOf (line : Text) : Text := line.takeWhile isLetter

/-- The rest of the line, without surrounding blanks (rule R95). -/
def operandOf (line : Text) : Text := trimText (line.dropWhile isLetter)

/-- The line ends with the given text. -/
def endsWith (line suffix : Text) : Bool := suffix.reverse.isPrefixOf line.reverse

/-- Steps 3 onward (rules R95 to R103). DESIGN CHOICE (log entry 22): a line with no leading letter has the empty
mnemonic; its operand is processed like any other and it yields Unknown. -/
def decodeMnemonicLine (t : SymbolTable) (line : Text) : Except DiagKind (Instr × SymbolTable) :=
  let mnemonic := mnemonicOf line
  let token := operandOf line
  if token = [] then
    if needsOperand mnemonic then .error .missingOperand
    else .ok (dispatchMnemonic 0 .direct mnemonic, t)
  else
    match resolveOperand t (isJumpMnemonic mnemonic) token with
    | .error e => .error e
    | .ok v => .ok (dispatchMnemonic v.value v.tag mnemonic, v.table)

/-- The Instruction Decoder on a prepared line: `END` (rule R93), then a line ending in `IN` or `OUT` (rules R94,
R120), then the mnemonic (rule R95). -/
def decodeLine (t : SymbolTable) (line : Text) : Except DiagKind (Instr × SymbolTable) :=
  if line = ['E', 'N', 'D'] then .ok (.endRun, t)
  else if endsWith line ['I', 'N'] then .ok (.inp, t)
  else if endsWith line ['O', 'U', 'T'] then .ok (.out, t)
  else decodeMnemonicLine t line

end Sys2Proof.Machine
end

