-- ==== Sys2Proof/Machine/Assembler.lean ====
section
/-! DEFINITION. The assembler pass (rules R108 to R112): from source lines to PROG, the debug records and the Symbol
Table, and from there to a machine ready for its first step (rule R223). -/

namespace Sys2Proof.Machine

/-- A debug record: the source line's index, counted from 0 (log entry 24), and its raw text (rules R12, R110). It is
no state of the machine (rule R38). -/
structure DebugRecord where
  line : Nat
  raw : Text
  deriving DecidableEq, Repr

/-- The Code artifact (rules R12, R110), with the assembly-time diagnostics of rules R103 and R194. -/
structure Code where
  instrs : List Instr
  records : List DebugRecord
  symbols : SymbolTable
  warnings : List Diag
  deriving DecidableEq, Repr

/-- An assembly-time fatal error, the offending source line (rule R112), and the diagnostics already emitted for the
Unknown lines before it (rules R103, R194), which nothing retracts. No program exists after it. -/
structure AsmError where
  kind : DiagKind
  line : Nat
  warnings : List Diag
  deriving DecidableEq, Repr

/-- The artifact before the first line. -/
def Code.empty : Code := { instrs := [], records := [], symbols := SymbolTable.empty, warnings := [] }

/-- A line without its comment, trimmed (rule R108). -/
def prepareLine (raw : Text) : Text := trimText (raw.takeWhile fun c => decide (c ≠ ';'))

/-- The name of a label line: everything before its final colon (rule R109); none for another line. -/
def labelOf (line : Text) : Option Text :=
  match line.reverse with
  | ':' :: rest => some rest.reverse
  | _ => none

/-- The index the next emitted instruction will have (rule R109, decision D23). -/
def Code.nextIndex (c : Code) : Word := BitVec.ofNat 16 c.instrs.length

/-- Register a label (rule R109). -/
def Code.addLabel (c : Code) (name : Text) : Code :=
  { c with symbols := c.symbols.registerLabel name c.nextIndex }

/-- Append an instruction with its debug record (rule R110); an Unknown is also reported (rules R103, R194; log
entry 24). -/
def Code.addInstr (c : Code) (i : Instr) (symbols : SymbolTable) (index : Nat) (raw : Text) : Code :=
  { instrs := c.instrs ++ [i]
    records := c.records ++ [{ line := index, raw := raw }]
    symbols := symbols
    warnings := if i = .unknown then c.warnings ++ [{ kind := .unknownInstruction, info := c.nextIndex }]
                else c.warnings }

/-- One non-empty line, raw and prepared (rules R109, R110). -/
def assemblePrepared (c : Code) (index : Nat) (raw line : Text) : Except AsmError Code :=
  match labelOf line with
  | some name => .ok (c.addLabel name)
  | none =>
    match decodeLine c.symbols line with
    | .error kind => .error { kind := kind, line := index, warnings := c.warnings }
    | .ok (i, symbols) => .ok (c.addInstr i symbols index raw)

/-- One source line: nothing where nothing is left of it (rule R108). -/
def assembleLine (c : Code) (index : Nat) (raw : Text) : Except AsmError Code :=
  let line := prepareLine raw
  if line = [] then .ok c else assemblePrepared c index raw line

/-- The single forward pass, from a line index on (rules R108, R111). A fatal line ends the pass;
the diagnostics emitted before it stay (rule R194). -/
def assembleFrom (c : Code) (index : Nat) : List Text → Except AsmError Code
  | [] => .ok c
  | raw :: rest =>
    match assembleLine c index raw with
    | .error e => .error e
    | .ok c' => assembleFrom c' (index + 1) rest

/-- The lines of a source text, cut at line feeds (rule R113). -/
def splitLines : Text → List Text
  | [] => [[]]
  | c :: rest =>
    if c = '\n' then [] :: splitLines rest
    else
      match splitLines rest with
      | [] => [[c]]
      | first :: others => (c :: first) :: others

/-- Assemble source lines. -/
def assembleLines (lines : List Text) : Except AsmError Code := assembleFrom Code.empty 0 lines

/-- Assemble a source text (rules R108 to R114). -/
def assemble (source : Text) : Except AsmError Code := assembleLines (splitLines source)

/-- The diagnostics of Unknown lines emitted while a source is assembled, whether or not the pass ends in a fatal error
(rules R103, R194). They are not in the machine's history. -/
def assemblyDiagnostics (source : Text) : List Diag :=
  match assemble source with
  | .ok c => c.warnings
  | .error e => e.warnings

/-- PROG as binary words (rules R84, R110). -/
def Code.words (c : Code) : List InstrWord := c.instrs.map encode

/-- What the environment supplies for a run beside the program (rules R6, R208). -/
structure RunSettings where
  input : List Byte
  commands : List Command
  resetZero : Bool
  shiftOverwidth : ShiftOverwidth
  deriving DecidableEq, Repr

/-- The parameters an assembled program fixes, with the environment's (rules R6, R97, R104, R110). -/
def Code.params (c : Code) (r : RunSettings) : Params :=
  { prog := c.words
    numVars := BitVec.ofNat 16 c.symbols.varCount
    minAddr := c.symbols.minLiteral
    input := r.input
    resetZero := r.resetZero
    shiftOverwidth := r.shiftOverwidth }

/-- Why no machine starts on a source: a fatal of the assembler (rule R112), or a program refused at boot
(rule R223). -/
inductive BootError where
  | assembly (e : AsmError)
  | program (r : Refusal)
  deriving DecidableEq, Repr

/-- Assemble a source and create the machine for it (rule R223). -/
def bootSource (source : Text) (r : RunSettings) : Except BootError State :=
  match assemble source with
  | .error e => .error (.assembly e)
  | .ok c =>
    match boot (c.params r) r.commands with
    | .error e => .error (.program e)
    | .ok s => .ok s

/-- Re-rendering a debug record: its source line without comment, trimmed (rule R121). -/
def DebugRecord.text (d : DebugRecord) : Text := prepareLine d.raw

/-- Re-rendering the debug records: the text of each instruction line in order (rule R121). -/
def Code.debugText (c : Code) : List Text := c.records.map DebugRecord.text

end Sys2Proof.Machine
end

