-- ==== Sys2Proof/Machine/Interface.lean ====
section
/-! DEFINITION. The interface of the block (rules R35, R208; decision D21): the ports as views of the state, what a
step drives on them, and what the host receives. Nothing here is read by a step. -/

namespace Sys2Proof.Machine

/-- The snapshot the renderer receives after each step (rule R35). -/
structure Snapshot where
  acc : Word
  ix : Word
  pc : Word
  flags : BitVec 4
  done : Bool
  deriving DecidableEq, Repr

/-- The snapshot of a state. -/
def State.snapshot (s : State) : Snapshot :=
  { acc := s.acc, ix := s.ix, pc := s.pc, flags := s.flags.packed, done := s.done }

/-- One access on the data memory ports: the logical address, and the content read or written (rules R35, R66). -/
inductive DataAccess where
  | read (address : Word) (data : Word)
  | write (address : Word) (data : Word)
  deriving DecidableEq, Repr

/-- One read of a cell. -/
def readCycle (s : State) (a : Word) : DataAccess := .read a (memRead s a)

/-- The accesses an instruction makes, in order (rules R50, R66): LDI reads the pointer, then the cell it names; LDX
one cell; STO writes one; the Direct forms read one; every other form none. DESIGN CHOICE (log entry 28): rule R35 drives
every port once per step and LDI reads twice in one, so the view lists its two accesses in order. -/
def dataAccesses (i : Instr) (s : State) : List DataAccess :=
  match i with
  | .ldd a => [readCycle s a]
  | .ldi p => [readCycle s p, readCycle s (indirectAddress s p)]
  | .ldx b => [readCycle s (indexedAddress s b)]
  | .sto a => [.write a s.acc]
  | .addDirect a | .subDirect a | .cmpDirect a | .xorDirect a | .orDirect a => [readCycle s a]
  | .unknown | .out | .inp | .ldm _ | .ldr _ | .mov | .subImmediate _ | .addImmediate _ => []
  | .incIx | .incAcc | .decIx | .decAcc | .lsl _ | .lsr _ | .xorImmediate _ | .orImmediate _ => []
  | .cmpImmediate _ | .jpeDirect _ | .jpeImmediate _ | .jpnDirect _ | .jpnImmediate _ | .endRun => []

/-- The instruction a step executes, if it executes one: not in a terminal state, nor at a control point the driver was
left waiting at, nor past the end of PROG, nor on a reserved word (rule R24). -/
def executedInstr (s : State) : Option Instr :=
  if s.runState = .running ∧ s.awaitingCommand = false ∧ s.params.prog.length ≤ maxProgLen then
    (fetch s).bind fun w => (decode w).toOption
  else none

/-- The data accesses of a step, in order: those of the instruction it executes, at the state with PC incremented. -/
def stepAccesses (s : State) : List DataAccess :=
  match executedInstr s with
  | none => []
  | some i => dataAccesses i s.advancePc

/-- What one access drives: `dmem_addr`, `dmem_wdata` and `dmem_we` (rule R35). With the strobe 0 `dmem_wdata` carries 0,
which nothing reads (log entry 28). -/
structure DataRequest where
  address : Word
  wdata : Word
  we : Bool
  deriving DecidableEq, Repr

/-- The lines an access drives. -/
def DataAccess.request : DataAccess → DataRequest
  | .read a _ => { address := a, wdata := 0, we := false }
  | .write a v => { address := a, wdata := v, we := true }

/-- What `dmem_rdata` returns for an access: the cell content of a read, nothing for a write. -/
def DataAccess.readData : DataAccess → Option Word
  | .read _ v => some v
  | .write _ _ => none

/-- The Memory component's side of a request: the cell written where the strobe is 1, through the translation of rule
R53, which is behind `dmem_addr` (rule R35). -/
def DataRequest.applyTo (p : Params) (m : Memory) (r : DataRequest) : Memory :=
  if r.we then m.write (phys p r.address) r.wdata else m

/-- The ports a step samples, and the index it presents to the instruction sequence (rule R35). -/
structure InputPorts where
  imemIndex : Word
  imemInstr : Option InstrWord
  imemLen : Word
  dmemRdata : List Word
  cfgNumVars : Word
  cfgMinAddr : Int
  cfgMinValid : Bool
  inByte : Byte
  inAvail : Bool
  ctrlCmd : Option Command
  deriving DecidableEq, Repr

/-- The value of an optional item, or a default where its valid line is 0. -/
def portValue {α : Type} (idle : α) : Option α → α
  | none => idle
  | some x => x

/-- The command the control point reads, if it reads one. DESIGN CHOICE (log entry 28; the table of rule R35 gives
`ctrl_cmd` no valid line): with the continue latch 1 no command is read and the port carries none, with the latch 0 it
carries the next recognised command of CTRL, and none when there is none left. -/
def presentedCommand (s : State) : Option Command :=
  if s.continueLatch then none else (readCommand s.ctrl).map fun r => r.1

/-- The sampled ports of the step from a state; `dmem_rdata` has one content for each read, in order. A data line whose
valid line is 0 carries 0, which nothing reads, and `imem_len` is exact for the lengths a program may have (log
entry 28). -/
def State.inputPorts (s : State) : InputPorts :=
  { imemIndex := s.pc
    imemInstr := fetch s
    imemLen := BitVec.ofNat 16 s.params.prog.length
    dmemRdata := (stepAccesses s).filterMap DataAccess.readData
    cfgNumVars := s.params.numVars
    cfgMinAddr := portValue 0 s.params.minAddr
    cfgMinValid := s.params.minAddr.isSome
    inByte := portValue 0 (inputByte s)
    inAvail := (inputByte s).isSome
    ctrlCmd := presentedCommand s }

/-- What a step drives: its requests on the data memory ports, in order (log entry 28), the byte and the diagnostic it
emitted, if any (their strobes), and the snapshot. -/
structure OutputPorts where
  dmem : List DataRequest
  outByte : Option Byte
  diag : Option Diag
  snapshot : Snapshot
  deriving DecidableEq, Repr

/-- The ports driven by a step from `s` to `t` (rule R35): a history grew by what was emitted. -/
def outputPorts (s t : State) : OutputPorts :=
  { dmem := (stepAccesses s).map DataAccess.request
    outByte := t.output[s.output.length]?
    diag := t.diags[s.diags.length]?
    snapshot := t.snapshot }

/-- What the host receives after each step (rule R208): what the ports of rule R35 drive, and the memory, which no port
carries, for the renderer. -/
structure StepReport where
  ports : OutputPorts
  memory : Memory
  deriving DecidableEq, Repr

/-- The report of a step from `s` to `t` (rule R208). -/
def stepReport (s t : State) : StepReport := { ports := outputPorts s t, memory := t.store }

/-- The result of a run (rules R208, R226): the final snapshot, the memory and the two histories. -/
structure RunResult where
  final : Snapshot
  store : Memory
  output : List Byte
  diags : List Diag
  deriving DecidableEq, Repr

/-- What the host has when a run is over. -/
def State.result (s : State) : RunResult :=
  { final := s.snapshot, store := s.store, output := s.output, diags := s.diags }

/-- The code of a diagnostic kind (rule R195, decision D19). -/
def DiagKind.code : DiagKind → Nat
  | .fetchPastEnd => 1
  | .unknownInstruction => 2
  | .malformedImmediate => 3
  | .unresolvedIdentifier => 4
  | .literalOutOfRange => 5
  | .missingOperand => 6

end Sys2Proof.Machine
end

