-- ==== Sys2Proof/Safety.lean ====
section
/-! DEFINITION. What claims speak of: the invariant of the machine, fit programs, the ends of a run, the flag-write table,
and the part of the state a program sees. -/

namespace Sys2Proof.Machine

/-- The run is over (rule R226). -/
abbrev State.Over (s : State) : Prop := s.runState ≠ .running

/-- The only successful end (rule R226). -/
abbrev State.Succeeded (s : State) : Prop := s.runState = .halted

/-- A program a machine may be created for (rule R223 (2)). -/
abbrev ProgramFit (p : Params) : Prop := programProblem p = none

/-- What every step keeps. -/
structure State.Inv (s : State) : Prop where
  /-- The store is in canonical form. -/
  store_wf : s.store.wf
  /-- Halted is equivalent to `done = 1` (rule R31). -/
  done_iff : s.done = true ↔ s.runState = .halted
  /-- The driver waits for a command only between instructions of a running machine with the latch 0 (rule R203). -/
  waiting : s.awaitingCommand = true → s.runState = .running ∧ s.continueLatch = false
  /-- No byte is read that INPUT does not hold (rule R33). -/
  input_le : s.inputPos ≤ s.params.input.length
  /-- The run is Aborted exactly when FetchPastEnd is recorded (rules R31, R191). -/
  aborted_iff : s.runState = .aborted ↔ ∃ d ∈ s.diags, d.kind = .fetchPastEnd
  /-- No assembly-time diagnostic is in the machine's history (rules R194, R195). -/
  runtime_kinds : ∀ d ∈ s.diags, d.kind = .fetchPastEnd ∨ d.kind = .unknownInstruction

end Sys2Proof.Machine

namespace Sys2Proof

/-- Which instructions write Z and N (table of 10_state.md section 3, rules R26, R27). -/
def Instr.writesZN : Instr → Bool
  | .ldd _ | .ldm _ | .ldi _ | .ldx _ | .inp => true
  | .addDirect _ | .addImmediate _ | .subDirect _ | .subImmediate _ => true
  | .cmpDirect _ | .cmpImmediate _ | .incAcc | .decAcc => true
  | .xorDirect _ | .xorImmediate _ | .orDirect _ | .orImmediate _ => true
  | .lsl _ | .lsr _ | .ldr _ | .mov | .sto _ | .incIx | .decIx => false
  | .jpeDirect _ | .jpeImmediate _ | .jpnDirect _ | .jpnImmediate _ | .out | .endRun | .unknown => false

/-- Which instructions write V (rule R28): the checked arithmetic. -/
def Instr.writesV : Instr → Bool
  | .addDirect _ | .addImmediate _ | .subDirect _ | .subImmediate _ => true
  | .cmpDirect _ | .cmpImmediate _ | .incAcc | .decAcc => true
  | .ldd _ | .ldm _ | .ldi _ | .ldx _ | .inp => false
  | .xorDirect _ | .xorImmediate _ | .orDirect _ | .orImmediate _ => false
  | .lsl _ | .lsr _ | .ldr _ | .mov | .sto _ | .incIx | .decIx => false
  | .jpeDirect _ | .jpeImmediate _ | .jpnDirect _ | .jpnImmediate _ | .out | .endRun | .unknown => false

/-- The two shifts (rule R29). -/
def Instr.isShift (i : Instr) : Bool := i.shiftCount.isSome

/-- Which instructions write ACC (rule R20). -/
def Instr.writesAcc : Instr → Bool
  | .ldd _ | .ldm _ | .ldi _ | .ldx _ | .inp => true
  | .addDirect _ | .addImmediate _ | .subDirect _ | .subImmediate _ | .incAcc | .decAcc => true
  | .xorDirect _ | .xorImmediate _ | .orDirect _ | .orImmediate _ | .lsl _ | .lsr _ => true
  | .cmpDirect _ | .cmpImmediate _ | .ldr _ | .mov | .sto _ | .incIx | .decIx => false
  | .jpeDirect _ | .jpeImmediate _ | .jpnDirect _ | .jpnImmediate _ | .out | .endRun | .unknown => false

/-- Which instructions write IX (rule R21). -/
def Instr.writesIx : Instr → Bool
  | .ldr _ | .mov | .incIx | .decIx => true
  | .ldd _ | .ldm _ | .ldi _ | .ldx _ | .inp | .sto _ => false
  | .addDirect _ | .addImmediate _ | .subDirect _ | .subImmediate _ | .incAcc | .decAcc => false
  | .xorDirect _ | .xorImmediate _ | .orDirect _ | .orImmediate _ | .lsl _ | .lsr _ => false
  | .cmpDirect _ | .cmpImmediate _ => false
  | .jpeDirect _ | .jpeImmediate _ | .jpnDirect _ | .jpnImmediate _ | .out | .endRun | .unknown => false

/-- The target of a jump (rules R170 to R173). -/
def Instr.jumpTarget : Instr → Option Word
  | .jpeDirect t | .jpeImmediate t | .jpnDirect t | .jpnImmediate t => some t
  | .ldd _ | .ldm _ | .ldi _ | .ldx _ | .ldr _ | .mov | .sto _ | .inp | .out | .endRun | .unknown => none
  | .addDirect _ | .addImmediate _ | .subDirect _ | .subImmediate _ | .cmpDirect _ | .cmpImmediate _ => none
  | .incAcc | .decAcc | .incIx | .decIx | .xorDirect _ | .xorImmediate _ | .orDirect _ | .orImmediate _ => none
  | .lsl _ | .lsr _ => none

/-- The logical address an instruction stores to (rules R50, R136): STO's operand, and none for the rest. -/
def Instr.storeAddress : Instr → Option Word
  | .sto a => some a
  | .jpeDirect _ | .jpeImmediate _ | .jpnDirect _ | .jpnImmediate _ | .inp | .out | .endRun | .unknown => none
  | .ldd _ | .ldm _ | .ldi _ | .ldx _ | .ldr _ | .mov => none
  | .addDirect _ | .addImmediate _ | .subDirect _ | .subImmediate _ | .cmpDirect _ | .cmpImmediate _ => none
  | .incAcc | .decAcc | .incIx | .decIx | .xorDirect _ | .xorImmediate _ | .orDirect _ | .orImmediate _ => none
  | .lsl _ | .lsr _ => none

end Sys2Proof

namespace Sys2Proof.Machine

/-- The state without what the control point alone reads and writes (rules R37, R203): everything a program can see,
and what a run is judged by. -/
def State.withoutControl (s : State) : State :=
  { s with continueLatch := false, ctrl := [], awaitingCommand := false }

end Sys2Proof.Machine
end

