-- ==== Sys2Proof/Certificates/Slice0/Obligations.lean ====
section
/-! DEFINITION. The statements for the provers. In every statement about `exec`, the state is the one after PC was
incremented (rule R24). -/

open Sys2Proof Sys2Proof.Machine

/-! ## Encoding (the layout is the spec's own decision D1, log entry 20) -/

/-- Every instruction, with every operand, decodes back from its word and from its bytes, whatever follows them.
The layout is decision D1 (log entry 20). -/
def Obligations.DecodeOfEncodeIsIdentity : Prop :=
  ∀ i : Instr, decode (encode i) = .ok i ∧ ∀ rest, decodeBytes (encodeBytes i ++ rest) = .ok (i, rest)

/-- Every legal word is the word of the instruction it decodes to: no two words decode alike. The layout is decision D1
(log entry 20). -/
def Obligations.EncodeOfDecodeIsIdentity : Prop :=
  ∀ (w : InstrWord) (i : Instr), decode w = .ok i → encode i = w

/-- The decoder accepts exactly the words that match a row of the opcode table. The table is decision D1
(log entry 20). -/
def Obligations.DecoderAcceptsTableWords : Prop :=
  ∀ w : InstrWord, (∃ i, decode w = .ok i) ↔ ∃ r ∈ opcodeTable, r.Matches w

/-- No word matches two rows of the opcode table. The table is decision D1 (log entry 20). -/
def Obligations.TableRowsAreDisjoint : Prop :=
  ∀ w : InstrWord, ∀ r ∈ opcodeTable, ∀ r' ∈ opcodeTable, r.Matches w → r'.Matches w → r = r'

/-- The reserved words are exactly those the spec lists. That they are reserved is decision D3 (log entry 20). -/
def Obligations.ReservedWordsAreThoseListed : Prop :=
  ∀ w : InstrWord,
    (¬ ∃ i, decode w = .ok i) ↔
      (0x12 ≤ (fieldOP w).toNat ∨
       fieldRSV w ≠ 0 ∨
       (2 ≤ (fieldM w).toNat ∧ fieldOP w ≠ 0x02) ∨
       (fieldM w ≠ 0 ∧ fieldOP w ∈ [0x00#8, 0x03#8, 0x04#8, 0x06#8, 0x0A#8, 0x0B#8, 0x11#8]) ∨
       (2 ≤ (fieldM w).toNat ∧ fieldOP w ∈ [0x01#8, 0x08#8, 0x09#8]) ∨
       (fieldOPR w ≠ 0 ∧ fieldOP w ∈ [0x00#8, 0x01#8, 0x04#8, 0x08#8, 0x09#8, 0x11#8]))

/-- Every row of the opcode table decodes to the instruction it names: the nine words without operand, the twenty-two
rows with every operand, and reserved words of the spec's word-decoder table, each rejected for its reason. The layout is
decision D1, the reserved words decision D3 (log entry 20). -/
def Obligations.SpecWordsDecode : Prop :=
  decode 0x00000000 = .ok .unknown ∧ decode 0x01000000 = .ok .out ∧ decode 0x01010000 = .ok .inp ∧
  decode 0x04000000 = .ok .mov ∧ decode 0x08000000 = .ok .incIx ∧ decode 0x08010000 = .ok .incAcc ∧
  decode 0x09000000 = .ok .decIx ∧ decode 0x09010000 = .ok .decAcc ∧ decode 0x11000000 = .ok .endRun ∧
  (∀ v : Word,
    decode (0x0200#16 ++ v) = .ok (.ldd v) ∧ decode (0x0201#16 ++ v) = .ok (.ldm v) ∧
    decode (0x0202#16 ++ v) = .ok (.ldi v) ∧ decode (0x0203#16 ++ v) = .ok (.ldx v) ∧
    decode (0x0300#16 ++ v) = .ok (.ldr v) ∧ decode (0x0500#16 ++ v) = .ok (.subDirect v) ∧
    decode (0x0501#16 ++ v) = .ok (.subImmediate v) ∧ decode (0x0600#16 ++ v) = .ok (.sto v) ∧
    decode (0x0700#16 ++ v) = .ok (.addDirect v) ∧ decode (0x0701#16 ++ v) = .ok (.addImmediate v) ∧
    decode (0x0A00#16 ++ v) = .ok (.lsl v) ∧ decode (0x0B00#16 ++ v) = .ok (.lsr v) ∧
    decode (0x0C00#16 ++ v) = .ok (.xorDirect v) ∧ decode (0x0C01#16 ++ v) = .ok (.xorImmediate v) ∧
    decode (0x0D00#16 ++ v) = .ok (.orDirect v) ∧ decode (0x0D01#16 ++ v) = .ok (.orImmediate v) ∧
    decode (0x0E00#16 ++ v) = .ok (.cmpDirect v) ∧ decode (0x0E01#16 ++ v) = .ok (.cmpImmediate v) ∧
    decode (0x0F00#16 ++ v) = .ok (.jpeDirect v) ∧ decode (0x0F01#16 ++ v) = .ok (.jpeImmediate v) ∧
    decode (0x1000#16 ++ v) = .ok (.jpnDirect v) ∧ decode (0x1001#16 ++ v) = .ok (.jpnImmediate v)) ∧
  decode 0x00000001 = .error .strayOperand ∧ decode 0x07020005 = .error .illegalMode ∧
  decode 0x02040000 = .error .reservedBits ∧ decode 0x12000000 = .error .unassignedOpcode

/-- An abstract variant is an instruction of the machine exactly when its mode is legal, and then of one instruction
only. For Compare the restriction is decision D27 (log entry 20). -/
def Obligations.LegalVariantsAreInstructions : Prop :=
  ∀ v : Variant, (v.wellFormed = true → ∃ i, v.instr = some i ∧ i.variant = v) ∧ (v.wellFormed = false → v.instr = none)

/-! ## The effect of each instruction: it answers this state for every state and operand -/

/-- LDD, LDM, LDI, LDX: ACC takes the operand, Z and N follow it, everything else is kept. That V and C are kept is
decision D12 (log entry 13); the address arithmetic of LDI and LDX is decision D6 (log entry 7). -/
def Obligations.LoadsSetAccAndFlags : Prop :=
  ∀ (s : State) (v : Word),
    let loaded (t : Word) : State :=
      { s with acc := t, flags := { s.flags with z := decide (t = 0), n := decide (t.toInt < 0) } }
    exec (.ldd v) s = .next (loaded (memRead s v)) ∧
    exec (.ldm v) s = .next (loaded v) ∧
    exec (.ldi v) s = .next (loaded (memRead s (memRead s v))) ∧
    exec (.ldx v) s = .next (loaded (memRead s (BitVec.ofInt 16 ((v.toNat : Int) + s.ix.toInt))))

/-- LDR: IX takes the literal; no flag, register or cell else changes. -/
def Obligations.LdrLoadsIx : Prop :=
  ∀ (s : State) (v : Word), exec (.ldr v) s = .next { s with ix := v }

/-- MOV: IX takes ACC; nothing else changes. That no flag changes is decision D13 (log entry 14). -/
def Obligations.MovCopiesAccToIx : Prop :=
  ∀ s : State, exec .mov s = .next { s with ix := s.acc }

/-- STO: the cell its operand names reads back ACC, every other cell of the store reads as before, and nothing but the
store changes. The canonical form of the store, premise and last clause, is the model's choice (log entry 5). -/
def Obligations.StoStoresAcc : Prop :=
  ∀ (s : State) (v : Word), s.store.wf →
    ∃ t, exec (.sto v) s = .next t ∧ memRead t v = s.acc ∧
      (∀ k, k ≠ phys s.params v → t.store.read k = s.store.read k) ∧
      t = { s with store := t.store } ∧ t.store.wf

/-- ADD, both modes: ACC takes the wrapped sum, all four flags are written, C as V; nothing else changes. -/
def Obligations.AddAddsOperand : Prop :=
  ∀ (s : State) (v : Word),
    let added (b : Word) : State :=
      let r : Int := s.acc.toInt + b.toInt
      { s with
        acc := BitVec.ofInt 16 r
        flags :=
          { z := decide (BitVec.ofInt 16 r = 0), n := decide ((BitVec.ofInt 16 r).toInt < 0)
            v := decide (32767 < r ∨ r < -32768), c := decide (32767 < r ∨ r < -32768) } }
    exec (.addDirect v) s = .next (added (memRead s v)) ∧ exec (.addImmediate v) s = .next (added v)

/-- SUB, both modes: ACC takes the wrapped difference ACC minus operand, all four flags are written, C as V; nothing
else changes. -/
def Obligations.SubSubtractsOperand : Prop :=
  ∀ (s : State) (v : Word),
    let subtracted (b : Word) : State :=
      let r : Int := s.acc.toInt - b.toInt
      { s with
        acc := BitVec.ofInt 16 r
        flags :=
          { z := decide (BitVec.ofInt 16 r = 0), n := decide ((BitVec.ofInt 16 r).toInt < 0)
            v := decide (32767 < r ∨ r < -32768), c := decide (32767 < r ∨ r < -32768) } }
    exec (.subDirect v) s = .next (subtracted (memRead s v)) ∧ exec (.subImmediate v) s = .next (subtracted v)

/-- CMP, both modes: the flags of the difference, ACC and everything else kept. -/
def Obligations.CmpSetsFlagsOnly : Prop :=
  ∀ (s : State) (v : Word),
    let compared (b : Word) : State :=
      let r : Int := s.acc.toInt - b.toInt
      { s with
        flags :=
          { z := decide (BitVec.ofInt 16 r = 0), n := decide ((BitVec.ofInt 16 r).toInt < 0)
            v := decide (32767 < r ∨ r < -32768), c := decide (32767 < r ∨ r < -32768) } }
    exec (.cmpDirect v) s = .next (compared (memRead s v)) ∧ exec (.cmpImmediate v) s = .next (compared v)

/-- INC ACC and DEC ACC do exactly what ADD #1 and SUB #1 do: the wrapped result, all four flags, nothing else. -/
def Obligations.IncDecAccCountAcc : Prop :=
  ∀ s : State,
    let counted (r : Int) : State :=
      { s with
        acc := BitVec.ofInt 16 r
        flags :=
          { z := decide (BitVec.ofInt 16 r = 0), n := decide ((BitVec.ofInt 16 r).toInt < 0)
            v := decide (32767 < r ∨ r < -32768), c := decide (32767 < r ∨ r < -32768) } }
    exec .incAcc s = .next (counted (s.acc.toInt + 1)) ∧ exec .decAcc s = .next (counted (s.acc.toInt - 1)) ∧
    exec .incAcc s = exec (.addImmediate 1) s ∧ exec .decAcc s = exec (.subImmediate 1) s

/-- INC IX and DEC IX: plain wrapping arithmetic on IX; no flag, no other register and no cell changes. -/
def Obligations.IncDecIxCountIx : Prop :=
  ∀ s : State,
    exec .incIx s = .next { s with ix := BitVec.ofInt 16 (s.ix.toInt + 1) } ∧
    exec .decIx s = .next { s with ix := BitVec.ofInt 16 (s.ix.toInt - 1) }

/-- XOR and OR, both modes: ACC takes the bitwise result, Z and N follow it, V, C and everything else are kept. -/
def Obligations.XorOrCombineBits : Prop :=
  ∀ (s : State) (v : Word),
    let combined (t : Word) : State :=
      { s with acc := t, flags := { s.flags with z := decide (t = 0), n := decide (t.toInt < 0) } }
    exec (.xorDirect v) s = .next (combined (s.acc ^^^ memRead s v)) ∧
    exec (.xorImmediate v) s = .next (combined (s.acc ^^^ v)) ∧
    exec (.orDirect v) s = .next (combined (s.acc ||| memRead s v)) ∧
    exec (.orImmediate v) s = .next (combined (s.acc ||| v))

/-- LSL and LSR by a count below 16, 0 included: the shifted pattern, C from bit 15 or bit 0 of ACC before the shift,
everything else kept. Which bit C takes for counts other than 1 is decision D15 (log entry 16). -/
def Obligations.ShiftsBelowSixteen : Prop :=
  ∀ (s : State) (c : Word), c.toNat < 16 →
    exec (.lsl c) s = .next { s with acc := BitVec.ofNat 16 (s.acc.toNat * 2 ^ c.toNat),
                                     flags := { s.flags with c := s.acc.getLsbD 15 } } ∧
    exec (.lsr c) s = .next { s with acc := BitVec.ofNat 16 (s.acc.toNat / 2 ^ c.toNat),
                                     flags := { s.flags with c := s.acc.getLsbD 0 } }

/-- LSL and LSR by 16 or more, under each value of the parameter SHIFT_OVERWIDTH: refused, ACC 0, or the count modulo 16;
C as for any other count. All of it is decision D14 (log entry 15). -/
def Obligations.ShiftsOverWidth : Prop :=
  ∀ (s : State) (c : Word), 16 ≤ c.toNat →
    (s.params.shiftOverwidth = .refuse →
      exec (.lsl c) s = .refused (.shiftOverwidth c) ∧ exec (.lsr c) s = .refused (.shiftOverwidth c)) ∧
    (s.params.shiftOverwidth = .zero →
      exec (.lsl c) s = .next { s with acc := 0, flags := { s.flags with c := s.acc.getLsbD 15 } } ∧
      exec (.lsr c) s = .next { s with acc := 0, flags := { s.flags with c := s.acc.getLsbD 0 } }) ∧
    (s.params.shiftOverwidth = .mod16 →
      exec (.lsl c) s = exec (.lsl (BitVec.ofNat 16 (c.toNat % 16))) s ∧
      exec (.lsr c) s = exec (.lsr (BitVec.ofNat 16 (c.toNat % 16))) s)

/-- JPE and JPN, both tags alike: PC takes the operand field when Z has the wanted polarity, and is left otherwise;
nothing else changes and no cell is read. -/
def Obligations.JumpsTestZ : Prop :=
  ∀ (s : State) (v : Word),
    (s.flags.z = true →
      exec (.jpeDirect v) s = .next { s with pc := v } ∧ exec (.jpeImmediate v) s = .next { s with pc := v } ∧
      exec (.jpnDirect v) s = .next s ∧ exec (.jpnImmediate v) s = .next s) ∧
    (s.flags.z = false →
      exec (.jpeDirect v) s = .next s ∧ exec (.jpeImmediate v) s = .next s ∧
      exec (.jpnDirect v) s = .next { s with pc := v } ∧ exec (.jpnImmediate v) s = .next { s with pc := v })

/-- IN with a byte at the input position: ACC takes the byte, Z follows it, N is 0, the position advances, everything
else is kept. The zero-extension is decision D16 (log entry 17), V and C kept is decision D12 (log entry 13). -/
def Obligations.InReadsByte : Prop :=
  ∀ (s : State) (b : Byte), s.params.input[s.inputPos]? = some b →
    exec .inp s =
      .next { s with
        acc := BitVec.ofNat 16 b.toNat
        flags := { s.flags with z := decide (b = 0), n := false }
        inputPos := s.inputPos + 1 }

/-- IN with INPUT exhausted has no step: from a running machine about to execute it, step answers that it is blocked.
That the machine blocks is decision D17; that a blocked machine is a named stop is log entry 8. -/
def Obligations.InBlocksWithoutInput : Prop :=
  ∀ s : State, s.runState = .running → s.awaitingCommand = false → s.params.prog.length ≤ 65535 →
    s.params.prog[s.pc.toNat]? = some 0x01010000#32 → s.params.input.length ≤ s.inputPos →
    step s = .fault .blockedOnInput

/-- OUT: bits 7:0 of ACC are appended to the output history; nothing else changes. -/
def Obligations.OutEmitsLowByte : Prop :=
  ∀ s : State, exec .out s = .next { s with output := s.output ++ [s.acc.extractLsb' 0 8] }

/-- END: done is 1 and the run is Halted; nothing else changes. -/
def Obligations.EndHaltsRun : Prop :=
  ∀ s : State, exec .endRun s = .next { s with done := true, runState := .halted }

/-- UNKNOWN: the diagnostic with the index the instruction was fetched from; nothing else changes. The number recorded is
decision D18 (log entry 18). -/
def Obligations.UnknownReportsIndex : Prop :=
  ∀ s : State, exec .unknown s =
    .next { s with diags := s.diags ++ [{ kind := .unknownInstruction, info := s.pc - 1 }] }

/-! ## Laws of the families -/

/-- The checked arithmetic, whole: the wrapped result by cases on the exact one, the four flags with C a copy of V, and
the facts the rule draws from the definition. -/
def Obligations.CheckedArithmetic : Prop :=
  (∀ (op : ArithOp) (a b : Word),
    let r : Int := op.exact a.toInt b.toInt
    let x := arith op a b
    x.res.toInt = (if 32767 < r then r - 65536 else if r < -32768 then r + 65536 else r) ∧
    (x.flags.z = true ↔ x.res = 0) ∧ (x.flags.n = true ↔ x.res.toInt < 0) ∧
    (x.flags.v = true ↔ (32767 < r ∨ r < -32768)) ∧ x.flags.c = x.flags.v ∧ -65536 ≤ r ∧ r ≤ 65535) ∧
  (∀ a b : Word, ArithOp.add.exact a.toInt b.toInt = a.toInt + b.toInt ∧
    ArithOp.sub.exact a.toInt b.toInt = a.toInt - b.toInt) ∧
  (∀ a b : Word, (arith .add a b).flags.v = true → 0 < a.toInt → 0 < b.toInt → (arith .add a b).flags.n = true) ∧
  (∀ a b : Word, (arith .add a b).flags.v = true → a.toInt < 0 → b.toInt < 0 → 0 ≤ (arith .add a b).res.toInt) ∧
  (∀ a b : Word, ((arith .add a b).flags.z = true ∧ (arith .add a b).flags.v = true) ↔ (a = 0x8000 ∧ b = 0x8000)) ∧
  (∀ a b : Word, (arith .sub a b).flags.v = true ↔
    ((a.toInt < 0 ↔ ¬ b.toInt < 0) ∧ ((arith .sub a b).res.toInt < 0 ↔ b.toInt < 0))) ∧
  (∀ a : Word, (arith .sub a 0x8000).flags.v = true ↔ 0 ≤ a.toInt)

/-- After CMP, in both modes, Z is 1 iff ACC equals the operand, and N is "ACC below the operand" exactly when V is 0 and
its opposite when V is 1. -/
def Obligations.CompareTestsEquality : Prop :=
  ∀ (s : State) (v : Word),
    let judged (b : Word) (t : State) : Prop :=
      t.acc = s.acc ∧ (t.flags.z = true ↔ s.acc = b) ∧
      (t.flags.v = false → (t.flags.n = true ↔ s.acc.toInt < b.toInt)) ∧
      (t.flags.v = true → (t.flags.n = true ↔ ¬ s.acc.toInt < b.toInt))
    (∃ t, exec (.cmpDirect v) s = .next t ∧ judged (memRead s v) t) ∧
    (∃ t, exec (.cmpImmediate v) s = .next t ∧ judged v t)

/-- After any of the four loads the pair (Z, N) is (1, 0) iff ACC is 0, (0, 1) iff it is negative, (0, 0) iff it is
positive; LDR, MOV and STO keep all four flags. That MOV does is decision D13 (log entry 14). -/
def Obligations.LoadFamilyFlags : Prop :=
  ∀ (s : State) (v : Word),
    (∀ i ∈ [Instr.ldd v, Instr.ldm v, Instr.ldi v, Instr.ldx v], ∃ t, exec i s = .next t ∧
      ((t.flags.z = true ∧ t.flags.n = false) ↔ t.acc.toInt = 0) ∧
      ((t.flags.z = false ∧ t.flags.n = true) ↔ t.acc.toInt < 0) ∧
      ((t.flags.z = false ∧ t.flags.n = false) ↔ 0 < t.acc.toInt)) ∧
    (∀ i ∈ [Instr.ldr v, Instr.mov, Instr.sto v], ∃ t, exec i s = .next t ∧ t.flags = s.flags)

/-- Which flags an instruction that answers a state has written, for every instruction: the table of flag writes. V and
C on loads and IN, and the flags on MOV, rest on decisions D12 and D13 (log entries 13 and 14). -/
def Obligations.FlagWritesFollowTable : Prop :=
  ∀ (i : Instr) (s t : State), exec i s = .next t →
    (i.writesZN = false → t.flags.z = s.flags.z ∧ t.flags.n = s.flags.n) ∧
    (i.writesZN = true → i.writesAcc = true →
      (t.flags.z = true ↔ t.acc = 0) ∧ (t.flags.n = true ↔ t.acc.toInt < 0)) ∧
    (i.writesV = false → t.flags.v = s.flags.v) ∧
    (i.writesV = true → t.flags.c = t.flags.v) ∧
    (i.writesV = false → i.isShift = false → t.flags.c = s.flags.c)

/-- For every instruction that answers a state: ACC changes only by the instructions listed as writing it, IX only by LDR,
MOV, INC IX and DEC IX, and PC only by a jump, to its operand. -/
def Obligations.RegisterWritersAreListed : Prop :=
  ∀ (i : Instr) (s t : State), exec i s = .next t →
    (i.writesAcc = false → t.acc = s.acc) ∧ (i.writesIx = false → t.ix = s.ix) ∧
    (t.pc = s.pc ∨ i.jumpTarget = some t.pc)

/-- For every instruction that answers a state: every cell of the store reads as before, but for the cell the
instruction stores to, which only STO has. -/
def Obligations.OnlyStoreTargetsChange : Prop :=
  ∀ (i : Instr) (s t : State), exec i s = .next t →
    (∀ a, i.storeAddress = some a → ∀ k, k ≠ phys s.params a → t.store.read k = s.store.read k) ∧
    (i.storeAddress = none → t.store = s.store)

/-- For every instruction that answers a state: the parameters and what belongs to the driver are kept, `done` is set by
END and by nothing else and cleared by nothing, and each stream is touched by its own instruction only. -/
def Obligations.StreamsAndLatchesFrame : Prop :=
  ∀ (i : Instr) (s t : State), exec i s = .next t →
    t.params = s.params ∧ t.continueLatch = s.continueLatch ∧ t.ctrl = s.ctrl ∧ t.awaitingCommand = s.awaitingCommand ∧
    t.done = (s.done || decide (i = .endRun)) ∧ (i ≠ .endRun → t.runState = s.runState) ∧
    (i ≠ .out → t.output = s.output) ∧ (i ≠ .unknown → t.diags = s.diags) ∧ (i ≠ .inp → t.inputPos = s.inputPos)

/-! ## Memory -/

/-- The three cases of the address translation. The third is decision D5 (log entry 6). -/
def Obligations.TranslationCases : Prop :=
  ∀ (p : Params) (a : Word),
    (a.toNat < p.numVars.toNat → phys p a = a.toNat) ∧
    (∀ m : Int, p.numVars.toNat ≤ a.toNat → p.minAddr = some m → 200 ≤ m → m ≤ (a.toNat : Int) →
      (phys p a : Int) = (a.toNat : Int) - m + (p.numVars.toNat : Int)) ∧
    (∀ m : Int, p.numVars.toNat ≤ a.toNat → p.minAddr = some m → (m < 200 ∨ (a.toNat : Int) < m) → phys p a = a.toNat) ∧
    (p.minAddr = none → phys p a = a.toNat)

/-- No other logical address selects the cell of a variable. Rests on decision D5 (log entry 6) for the addresses the
translation leaves alone. -/
def Obligations.VariableCellsAreUnaliased : Prop :=
  ∀ (p : Params) (a b : Word), a < p.numVars → phys p a = phys p b → a = b

/-- The aliasing the third case creates: an address between NUM_VARS and MIN_ADDR shares its cell with the upper-region
address above it. It exists by decision D5 (log entry 6). -/
def Obligations.UpperRegionAliases : Prop :=
  ∀ (p : Params) (m : Int) (b c : Word), p.minAddr = some m → 200 ≤ m → p.numVars.toNat ≤ b.toNat →
    (b.toNat : Int) < m → (c.toNat : Int) = (b.toNat : Int) + m - (p.numVars.toNat : Int) →
    phys p b = b.toNat ∧ phys p c = b.toNat

/-- The largest physical index an access can produce. Rests on decision D5 (log entry 6) for the third case. -/
def Obligations.PhysicalIndexBound : Prop :=
  ∀ (p : Params) (a : Word),
    (p.minAddr = none → phys p a ≤ 65535) ∧
    (∀ m : Int, p.minAddr = some m → (phys p a : Int) ≤ max 65535 (65535 - m + (p.numVars.toNat : Int)))

/-- Stores with the same content are the same data: the canonical form of the model (log entry 5). -/
def Obligations.CanonicalStoresAreEqual : Prop :=
  ∀ m m' : Memory, m.wf → m'.wf → (∀ k, m.read k = m'.read k) → m = m'

/-! ## The step rule -/

/-- A running machine between instructions, whose word at PC decodes to an instruction, does what `exec` does at the
state with PC incremented, and then passes the control point; a stop of `exec` is the step's. -/
def Obligations.StepRunsDecodedInstruction : Prop :=
  ∀ (s : State) (w : InstrWord) (i : Instr), s.runState = .running → s.awaitingCommand = false →
    s.params.prog.length ≤ 65535 → s.params.prog[s.pc.toNat]? = some w → decode w = .ok i →
    step s =
      (match exec i { s with pc := s.pc + 1 } with
       | .next t => .next (controlPoint t)
       | .fault f => .fault f
       | .refused r => .refused r)

/-- PC never wraps around: when an instruction is fetched the increment is exact and at most 65535, and a step that
executes an instruction other than a jump leaves PC at the next index, exactly. The bound on PROG_LEN is decision D9 (log
entry 19). -/
def Obligations.PcIncrementIsExact : Prop :=
  ∀ (s : State) (w : InstrWord), s.params.prog.length ≤ 65535 → fetch s = some w →
    s.advancePc.pc.toNat = s.pc.toNat + 1 ∧ s.advancePc.pc.toNat ≤ 65535 ∧
    ∀ (i : Instr) (t : State), s.awaitingCommand = false → decode w = .ok i → i.jumpTarget = none →
      step s = .next t → t.pc.toNat = s.pc.toNat + 1

/-- Past the end of the program a step raises FetchPastEnd: the diagnostic with PC is recorded, the run is Aborted,
everything else is kept, and the machine takes no further step. That the state is retained is decision D20 and the
number recorded decision D18 (log entries 9 and 18). -/
def Obligations.FetchPastEndAborts : Prop :=
  ∀ s : State, s.runState = .running → s.awaitingCommand = false → s.params.prog.length ≤ 65535 →
    s.params.prog.length ≤ s.pc.toNat →
    ∃ t, step s = .next t ∧
      t = { s with diags := s.diags ++ [{ kind := .fetchPastEnd, info := s.pc }], runState := .aborted } ∧
      step t = .fault .runAborted

/-- No step is enabled in a terminal state, each of which stops under its own name (log entry 8). -/
def Obligations.TerminalStatesTakeNoStep : Prop :=
  ∀ s : State,
    (s.runState = .halted → step s = .fault .runHalted) ∧ (s.runState = .aborted → step s = .fault .runAborted) ∧
    (s.runState = .stopped → step s = .fault .runStopped)

/-- A reserved word at PC is refused, not run as Unknown. That it is refused is decision D3 (log entries 4 and 20). -/
def Obligations.ReservedWordIsRefused : Prop :=
  ∀ (s : State) (w : InstrWord), s.runState = .running → s.awaitingCommand = false → s.params.prog.length ≤ 65535 →
    s.params.prog[s.pc.toNat]? = some w → (¬ ∃ i, decode w = .ok i) → step s = .refused (.reservedEncoding w)

/-- The control point: with the latch 1 no command is read; with the latch 0 unrecognised commands are dropped and the
next is applied (Step nothing, Continue the latch, Quit Stopped unless Halted); with none left the driver waits. Quit
after END is decision D29 (log entry 11), the waiting is log entry 10. -/
def Obligations.ControlPointProtocol : Prop :=
  ∀ (s : State) (junk rest : List Command), (∀ c ∈ junk, c = .unrecognised) →
    (s.continueLatch = true → controlPoint s = { s with awaitingCommand := false }) ∧
    (s.continueLatch = false →
      (s.ctrl = junk ++ .step :: rest → controlPoint s = { s with ctrl := rest, awaitingCommand := false }) ∧
      (s.ctrl = junk ++ .cont :: rest →
        controlPoint s = { s with ctrl := rest, awaitingCommand := false, continueLatch := true }) ∧
      (s.ctrl = junk ++ .quit :: rest → s.runState ≠ .halted →
        controlPoint s = { s with ctrl := rest, awaitingCommand := false, runState := .stopped }) ∧
      (s.ctrl = junk ++ .quit :: rest → s.runState = .halted →
        controlPoint s = { s with ctrl := rest, awaitingCommand := false }) ∧
      (s.ctrl = junk → controlPoint s = { s with ctrl := [], awaitingCommand := decide (s.runState = .running) }))

/-- A waiting driver: blocked with the latch 0 and no command, and otherwise its step is the control point alone. -/
def Obligations.WaitingDriverResumes : Prop :=
  ∀ s : State, s.runState = .running → s.awaitingCommand = true →
    (s.continueLatch = false → (∀ c ∈ s.ctrl, c = .unrecognised) → step s = .fault .blockedOnCommand) ∧
    (s.continueLatch = true ∨ (∃ c ∈ s.ctrl, c ≠ .unrecognised) → step s = .next (controlPoint s))

/-- A run under any sequence of Step and Continue commands is the same run: for every number of steps for which the
commands suffice (there is one for each step, or a Continue among them), it ends in the same fault, the same refusal, or
the same state but for the driver's own fields, as the run that never reads one. -/
def Obligations.StepAndContinueAreInvisible : Prop :=
  ∀ (n : Nat) (s : State) (commands : List Command),
    (∀ c ∈ commands, c = .step ∨ c = .cont) → (n ≤ commands.length ∨ .cont ∈ commands) →
    (match core.run n { s with continueLatch := false, ctrl := commands, awaitingCommand := false },
           core.run n { s with continueLatch := true, ctrl := [], awaitingCommand := false } with
     | .next t, .next u => State.withoutControl t = State.withoutControl u
     | .fault f, .fault g => f = g
     | .refused r, .refused q => r = q
     | _, _ => False)

/-- Every step that answers a state keeps the parameters, only extends the output and diagnostic histories, never moves
the input position back, and never clears the continue latch or `done`. -/
def Obligations.HistoriesOnlyGrow : Prop :=
  ∀ s t : State, step s = .next t →
    t.params = s.params ∧ s.output <+: t.output ∧ s.diags <+: t.diags ∧ s.inputPos ≤ t.inputPos ∧
    (s.continueLatch = true → t.continueLatch = true) ∧ (s.done = true → t.done = true)

/-- The ports tell all a step does outside the registers: the store after it is the store before it with the requests
driven on the data memory ports applied in order; each content on `dmem_rdata` is that of the cell its request addresses,
in the store before the step; at most one request writes; and each history is extended by what its strobe carried. The
ports are decision D21 and how LDI's two reads appear on them is the model's choice (log entry 28). -/
def Obligations.PortsAccountForStep : Prop :=
  ∀ s t : State, step s = .next t →
    t.store = (outputPorts s t).dmem.foldl (DataRequest.applyTo s.params) s.store ∧
    s.inputPorts.dmemRdata =
      ((outputPorts s t).dmem.filter fun r => !r.we).map (fun r => s.store.read (phys s.params r.address)) ∧
    ((outputPorts s t).dmem.filter fun r => r.we).length ≤ 1 ∧
    t.output = s.output ++ (outputPorts s t).outByte.toList ∧ t.diags = s.diags ++ (outputPorts s t).diag.toList

/-- Every step keeps the invariant of the model. -/
def Obligations.StepKeepsInvariant : Prop :=
  ∀ s t : State, s.Inv → step s = .next t → t.Inv

/-- The invariant holds after reset. -/
def Obligations.ResetHasInvariant : Prop := State.reset.Inv

/-- Progress: a running machine that holds the invariant, with a program fit to run, makes a step, unless it waits for a
control command that is not there or is about to execute IN with INPUT exhausted. In particular no step of it is
refused. The named stops are log entry 8. -/
def Obligations.FitProgramMakesProgress : Prop :=
  ∀ s : State, s.Inv → ProgramFit s.params → s.runState = .running →
    (∃ t, step s = .next t) ∨
    (step s = .fault .blockedOnCommand ∧ s.awaitingCommand = true ∧ s.continueLatch = false ∧
      ∀ c ∈ s.ctrl, c = .unrecognised) ∨
    (step s = .fault .blockedOnInput ∧ s.awaitingCommand = false ∧ s.params.prog[s.pc.toNat]? = some 0x01010000#32 ∧
      s.inputPos = s.params.input.length)

/-! ## Reset and boot -/

/-- The state after reset, item by item: the values of the spec's reset table with RESET_ZERO true. Not the source's own
words: the zeros of ACC, IX and the flags (decision D10, log entry 1), PC, `done` and the continue latch (log entry 27),
the input position (decision D17, log entry 17), the empty histories (decision D18, log entry 18). -/
def Obligations.ResetValues : Prop :=
  State.reset.acc = 0 ∧ State.reset.ix = 0 ∧ State.reset.pc = 0 ∧
  State.reset.flags = { z := false, n := false, v := false, c := false } ∧ State.reset.done = false ∧
  State.reset.runState = .running ∧ (∀ a, memRead State.reset a = 0) ∧ State.reset.inputPos = 0 ∧
  State.reset.output = [] ∧ State.reset.diags = [] ∧ State.reset.continueLatch = false

/-- Boot accepts exactly the programs of at most 65535 instructions whose every word is a legal, well-formed instruction,
and then the machine holds the invariant, the parameters and commands given, and every reset value; the driver waits for
no command. The bound is decision D9, the refusal of reserved words decision D3, of overwide shifts D14 (log entries 19,
4, 15). The reset values: the zeros decision D10 (log entry 1), PC, `done` and the latch log entry 27, the form of the
store log entry 5, the input position decision D17 (log entry 17), the histories decision D18 (log entry 18),
`awaitingCommand` log entry 10. -/
def Obligations.BootAcceptsFitPrograms : Prop :=
  ∀ (p : Params) (commands : List Command),
    ((∃ s, boot p commands = .ok s) ↔
      (p.prog.length ≤ 65535 ∧ ∀ w ∈ p.prog, ∃ i, decode w = .ok i ∧ i.wellFormed p.shiftOverwidth = true)) ∧
    (∀ s, boot p commands = .ok s →
      s.Inv ∧ s.params = p ∧ s.ctrl = commands ∧ s.pc = 0 ∧ s.done = false ∧ s.runState = .running ∧ s.store = [] ∧
      s.inputPos = 0 ∧ s.output = [] ∧ s.diags = [] ∧ s.continueLatch = false ∧ s.awaitingCommand = false ∧
      (p.resetZero = true → s.acc = 0 ∧ s.ix = 0 ∧ s.flags = { z := false, n := false, v := false, c := false }))

/-! ## The assembler -/

/-- `ACC` and `IX` resolve to 0 and 1 in every table, and registering them as variables changes nothing. -/
def Obligations.AccAndIxResolve : Prop :=
  ∀ t : SymbolTable, t.resolve ['A', 'C', 'C'] = some 0 ∧ t.resolve ['I', 'X'] = some 1 ∧
    t.registerVariable ['A', 'C', 'C'] = t ∧ t.registerVariable ['I', 'X'] = t

/-- Distinct variables registered in order, from the empty table, get the addresses 0, 1, 2 and so on, and are counted;
registering a name that already resolves changes nothing. That addresses past 65535 are taken modulo 65536 is the model's
choice (log entry 25). -/
def Obligations.VariablesTakeFirstUseAddresses : Prop :=
  (∀ names : List Text, names.Nodup → (∀ x ∈ names, x ≠ ['A', 'C', 'C'] ∧ x ≠ ['I', 'X']) →
    let t := names.foldl SymbolTable.registerVariable SymbolTable.empty
    t.varCount = names.length ∧
    ∀ (k : Nat) (x : Text), names[k]? = some x → t.resolve x = some (BitVec.ofNat 16 k)) ∧
  (∀ (t : SymbolTable) (name : Text) (address : Word),
    t.resolve name = some address → t.registerVariable name = t)

/-- The line END is End, and a line whose last characters are IN or OUT is an IO instruction, whatever stands before
them and whatever the Symbol Table, which is not changed. -/
def Obligations.EndAndIoLinesComeFirst : Prop :=
  ∀ (t : SymbolTable) (before : Text),
    decodeLine t ['E', 'N', 'D'] = .ok (.endRun, t) ∧
    decodeLine t (before ++ ['I', 'N']) = .ok (.inp, t) ∧
    decodeLine t (before ++ ['O', 'U', 'T']) = .ok (.out, t)

/-- Re-rendering the debug records of an assembled source gives the trimmed, comment-stripped text of every line that is
neither blank nor a label, in order; there is one record for each instruction, and it holds the raw text of the line it
names. That lines are counted from 0 is log entry 24. -/
def Obligations.DebugRecordsReproduceSource : Prop :=
  ∀ (lines : List Text) (c : Code), assembleLines lines = .ok c →
    c.debugText = (lines.map prepareLine).filter (fun l => decide (l ≠ [] ∧ labelOf l = none)) ∧
    c.instrs.length = c.records.length ∧
    ∀ d ∈ c.records, lines[d.line]? = some d.raw

/-- A source that assembles, to at most 65535 instructions and with no shift by 16 or more where the setting refuses
them, always boots: the assembler emits no reserved encoding. Decisions D1, D9 and D14 (log entries 15, 19 and 20). -/
def Obligations.AssembledProgramsBoot : Prop :=
  ∀ (lines : List Text) (c : Code) (r : RunSettings), assembleLines lines = .ok c → c.instrs.length ≤ 65535 →
    (r.shiftOverwidth = .refuse → ∀ i ∈ c.instrs, ∀ k, i.shiftCount = some k → k.toNat < 16) →
    ∃ s, boot (c.params r) r.commands = .ok s ∧
      ∀ (k : Nat) (i : Instr), c.instrs[k]? = some i → ∃ w, s.params.prog[k]? = some w ∧ decode w = .ok i

/-- Every Unknown instruction of a source is reported once, in order, with its index, and a fatal line takes back none of
the reports: it is a line of the source, what stands before it assembles, and the reports are those of that part. The
number recorded and the count of lines from 0 are the model's choice (log entry 24). -/
def Obligations.AssemblyReportsEveryUnknown : Prop :=
  ∀ lines : List Text,
    (∀ c, assembleLines lines = .ok c →
      c.warnings = (c.instrs.zipIdx.filter fun p => decide (p.1 = .unknown)).map
        fun p => { kind := .unknownInstruction, info := BitVec.ofNat 16 p.2 }) ∧
    (∀ e, assembleLines lines = .error e →
      e.line < lines.length ∧ ∃ c, assembleLines (lines.take e.line) = .ok c ∧ e.warnings = c.warnings)
end

