-- ==== Sys2Proof/Laws/Assembler.lean ====
section
/-! SUPPORT. What one source line does to the artifact, said once, and each field after each update of it. -/

namespace Sys2Proof.Machine

variable (c : Code) (name : Text) (i : Instr) (symbols : SymbolTable) (index : Nat) (raw : Text)

@[simp] theorem Code.addLabel_instrs : (c.addLabel name).instrs = c.instrs := rfl
@[simp] theorem Code.addLabel_records : (c.addLabel name).records = c.records := rfl
@[simp] theorem Code.addLabel_symbols :
    (c.addLabel name).symbols = c.symbols.registerLabel name c.nextIndex := rfl
@[simp] theorem Code.addLabel_warnings : (c.addLabel name).warnings = c.warnings := rfl

@[simp] theorem Code.addInstr_instrs : (c.addInstr i symbols index raw).instrs = c.instrs ++ [i] := rfl
@[simp] theorem Code.addInstr_records :
    (c.addInstr i symbols index raw).records = c.records ++ [{ line := index, raw := raw }] := rfl
@[simp] theorem Code.addInstr_symbols : (c.addInstr i symbols index raw).symbols = symbols := rfl

@[simp] theorem Code.addInstr_warnings :
    (c.addInstr i symbols index raw).warnings =
      if i = .unknown then c.warnings ++ [{ kind := .unknownInstruction, info := c.nextIndex }] else c.warnings := rfl

@[simp] theorem DebugRecord.text_mk : DebugRecord.text { line := index, raw := raw } = prepareLine raw := rfl

@[simp] theorem Code.debugText_empty : Code.empty.debugText = [] := rfl
@[simp] theorem Code.debugText_addLabel : (c.addLabel name).debugText = c.debugText := rfl
@[simp] theorem Code.debugText_addInstr :
    (c.addInstr i symbols index raw).debugText = c.debugText ++ [prepareLine raw] := by
  simp [Code.debugText]

/-- A label named `ACC` is not seen by `resolve` (log entry 33). -/
@[simp] theorem SymbolTable.resolve_acc (t : SymbolTable) : t.resolve nameAcc = some 0 := rfl

/-- A label named `IX` is not seen by `resolve` (log entry 33). -/
@[simp] theorem SymbolTable.resolve_ix (t : SymbolTable) : t.resolve nameIx = some 1 := rfl

/-- Everything a source line that is not fatal can do: nothing, a label, or an instruction. -/
theorem assembleLine_cases {c c' : Code} {index : Nat} {raw : Text} (h : assembleLine c index raw = .ok c') :
    (prepareLine raw = [] ∧ c' = c) ∨
    (prepareLine raw ≠ [] ∧ ∃ name, labelOf (prepareLine raw) = some name ∧ c' = c.addLabel name) ∨
    (prepareLine raw ≠ [] ∧ labelOf (prepareLine raw) = none ∧
      ∃ i symbols, decodeLine c.symbols (prepareLine raw) = .ok (i, symbols) ∧
        c' = c.addInstr i symbols index raw) := by
  unfold assembleLine at h
  by_cases hp : prepareLine raw = []
  · rw [if_pos hp] at h
    exact .inl ⟨hp, (Except.ok.inj h).symm⟩
  · rw [if_neg hp, assemblePrepared] at h
    split at h
    · rename_i name hn
      exact .inr (.inl ⟨hp, name, hn, (Except.ok.inj h).symm⟩)
    · rename_i hn
      split at h
      · cases h
      · rename_i i symbols hd
        exact .inr (.inr ⟨hp, hn, i, symbols, hd, (Except.ok.inj h).symm⟩)

/-- A fatal source line: its kind is the decoder's, its index its own, and it keeps the diagnostics so far. -/
theorem assembleLine_error {c : Code} {index : Nat} {raw : Text} {e : AsmError}
    (h : assembleLine c index raw = .error e) :
    prepareLine raw ≠ [] ∧ labelOf (prepareLine raw) = none ∧ decodeLine c.symbols (prepareLine raw) = .error e.kind ∧
      e.line = index ∧ e.warnings = c.warnings := by
  unfold assembleLine at h
  by_cases hp : prepareLine raw = []
  · rw [if_pos hp] at h
    cases h
  · rw [if_neg hp, assemblePrepared] at h
    split at h
    · cases h
    · rename_i hn
      split at h
      · rename_i kind hd
        obtain rfl := Except.error.inj h
        exact ⟨hp, hn, hd, rfl, rfl⟩
      · cases h

end Sys2Proof.Machine
end

