-- ==== Sys2Proof/Laws/State.lean ====
section
/-! SUPPORT. For every state update of the model, what each field of the state is after it. All hold by definition; a
later proof cites them (as simp lemmas) and never unfolds an update. -/

namespace Sys2Proof.Machine

variable (s : State)

/-! ## setAcc -/

@[simp] theorem State.setAcc_params (v : Word) : (s.setAcc v).params = s.params := rfl
@[simp] theorem State.setAcc_acc (v : Word) : (s.setAcc v).acc = v := rfl
@[simp] theorem State.setAcc_ix (v : Word) : (s.setAcc v).ix = s.ix := rfl
@[simp] theorem State.setAcc_pc (v : Word) : (s.setAcc v).pc = s.pc := rfl
@[simp] theorem State.setAcc_flags (v : Word) : (s.setAcc v).flags = s.flags := rfl
@[simp] theorem State.setAcc_done (v : Word) : (s.setAcc v).done = s.done := rfl
@[simp] theorem State.setAcc_runState (v : Word) : (s.setAcc v).runState = s.runState := rfl
@[simp] theorem State.setAcc_store (v : Word) : (s.setAcc v).store = s.store := rfl
@[simp] theorem State.setAcc_inputPos (v : Word) : (s.setAcc v).inputPos = s.inputPos := rfl
@[simp] theorem State.setAcc_output (v : Word) : (s.setAcc v).output = s.output := rfl
@[simp] theorem State.setAcc_diags (v : Word) : (s.setAcc v).diags = s.diags := rfl
@[simp] theorem State.setAcc_continueLatch (v : Word) : (s.setAcc v).continueLatch = s.continueLatch := rfl
@[simp] theorem State.setAcc_ctrl (v : Word) : (s.setAcc v).ctrl = s.ctrl := rfl
@[simp] theorem State.setAcc_awaitingCommand (v : Word) : (s.setAcc v).awaitingCommand = s.awaitingCommand := rfl

/-! ## setIx -/

@[simp] theorem State.setIx_params (v : Word) : (s.setIx v).params = s.params := rfl
@[simp] theorem State.setIx_acc (v : Word) : (s.setIx v).acc = s.acc := rfl
@[simp] theorem State.setIx_ix (v : Word) : (s.setIx v).ix = v := rfl
@[simp] theorem State.setIx_pc (v : Word) : (s.setIx v).pc = s.pc := rfl
@[simp] theorem State.setIx_flags (v : Word) : (s.setIx v).flags = s.flags := rfl
@[simp] theorem State.setIx_done (v : Word) : (s.setIx v).done = s.done := rfl
@[simp] theorem State.setIx_runState (v : Word) : (s.setIx v).runState = s.runState := rfl
@[simp] theorem State.setIx_store (v : Word) : (s.setIx v).store = s.store := rfl
@[simp] theorem State.setIx_inputPos (v : Word) : (s.setIx v).inputPos = s.inputPos := rfl
@[simp] theorem State.setIx_output (v : Word) : (s.setIx v).output = s.output := rfl
@[simp] theorem State.setIx_diags (v : Word) : (s.setIx v).diags = s.diags := rfl
@[simp] theorem State.setIx_continueLatch (v : Word) : (s.setIx v).continueLatch = s.continueLatch := rfl
@[simp] theorem State.setIx_ctrl (v : Word) : (s.setIx v).ctrl = s.ctrl := rfl
@[simp] theorem State.setIx_awaitingCommand (v : Word) : (s.setIx v).awaitingCommand = s.awaitingCommand := rfl

/-! ## setPc -/

@[simp] theorem State.setPc_params (v : Word) : (s.setPc v).params = s.params := rfl
@[simp] theorem State.setPc_acc (v : Word) : (s.setPc v).acc = s.acc := rfl
@[simp] theorem State.setPc_ix (v : Word) : (s.setPc v).ix = s.ix := rfl
@[simp] theorem State.setPc_pc (v : Word) : (s.setPc v).pc = v := rfl
@[simp] theorem State.setPc_flags (v : Word) : (s.setPc v).flags = s.flags := rfl
@[simp] theorem State.setPc_done (v : Word) : (s.setPc v).done = s.done := rfl
@[simp] theorem State.setPc_runState (v : Word) : (s.setPc v).runState = s.runState := rfl
@[simp] theorem State.setPc_store (v : Word) : (s.setPc v).store = s.store := rfl
@[simp] theorem State.setPc_inputPos (v : Word) : (s.setPc v).inputPos = s.inputPos := rfl
@[simp] theorem State.setPc_output (v : Word) : (s.setPc v).output = s.output := rfl
@[simp] theorem State.setPc_diags (v : Word) : (s.setPc v).diags = s.diags := rfl
@[simp] theorem State.setPc_continueLatch (v : Word) : (s.setPc v).continueLatch = s.continueLatch := rfl
@[simp] theorem State.setPc_ctrl (v : Word) : (s.setPc v).ctrl = s.ctrl := rfl
@[simp] theorem State.setPc_awaitingCommand (v : Word) : (s.setPc v).awaitingCommand = s.awaitingCommand := rfl

/-! ## setFlags -/

@[simp] theorem State.setFlags_params (f : Flags) : (s.setFlags f).params = s.params := rfl
@[simp] theorem State.setFlags_acc (f : Flags) : (s.setFlags f).acc = s.acc := rfl
@[simp] theorem State.setFlags_ix (f : Flags) : (s.setFlags f).ix = s.ix := rfl
@[simp] theorem State.setFlags_pc (f : Flags) : (s.setFlags f).pc = s.pc := rfl
@[simp] theorem State.setFlags_flags (f : Flags) : (s.setFlags f).flags = f := rfl
@[simp] theorem State.setFlags_done (f : Flags) : (s.setFlags f).done = s.done := rfl
@[simp] theorem State.setFlags_runState (f : Flags) : (s.setFlags f).runState = s.runState := rfl
@[simp] theorem State.setFlags_store (f : Flags) : (s.setFlags f).store = s.store := rfl
@[simp] theorem State.setFlags_inputPos (f : Flags) : (s.setFlags f).inputPos = s.inputPos := rfl
@[simp] theorem State.setFlags_output (f : Flags) : (s.setFlags f).output = s.output := rfl
@[simp] theorem State.setFlags_diags (f : Flags) : (s.setFlags f).diags = s.diags := rfl
@[simp] theorem State.setFlags_continueLatch (f : Flags) : (s.setFlags f).continueLatch = s.continueLatch := rfl
@[simp] theorem State.setFlags_ctrl (f : Flags) : (s.setFlags f).ctrl = s.ctrl := rfl
@[simp] theorem State.setFlags_awaitingCommand (f : Flags) : (s.setFlags f).awaitingCommand = s.awaitingCommand := rfl

/-! ## advancePc -/

@[simp] theorem State.advancePc_params : s.advancePc.params = s.params := rfl
@[simp] theorem State.advancePc_acc : s.advancePc.acc = s.acc := rfl
@[simp] theorem State.advancePc_ix : s.advancePc.ix = s.ix := rfl
@[simp] theorem State.advancePc_pc : s.advancePc.pc = s.pc + 1 := rfl
@[simp] theorem State.advancePc_flags : s.advancePc.flags = s.flags := rfl
@[simp] theorem State.advancePc_done : s.advancePc.done = s.done := rfl
@[simp] theorem State.advancePc_runState : s.advancePc.runState = s.runState := rfl
@[simp] theorem State.advancePc_store : s.advancePc.store = s.store := rfl
@[simp] theorem State.advancePc_inputPos : s.advancePc.inputPos = s.inputPos := rfl
@[simp] theorem State.advancePc_output : s.advancePc.output = s.output := rfl
@[simp] theorem State.advancePc_diags : s.advancePc.diags = s.diags := rfl
@[simp] theorem State.advancePc_continueLatch : s.advancePc.continueLatch = s.continueLatch := rfl
@[simp] theorem State.advancePc_ctrl : s.advancePc.ctrl = s.ctrl := rfl
@[simp] theorem State.advancePc_awaitingCommand : s.advancePc.awaitingCommand = s.awaitingCommand := rfl

/-! ## consumeInput -/

@[simp] theorem State.consumeInput_params : s.consumeInput.params = s.params := rfl
@[simp] theorem State.consumeInput_acc : s.consumeInput.acc = s.acc := rfl
@[simp] theorem State.consumeInput_ix : s.consumeInput.ix = s.ix := rfl
@[simp] theorem State.consumeInput_pc : s.consumeInput.pc = s.pc := rfl
@[simp] theorem State.consumeInput_flags : s.consumeInput.flags = s.flags := rfl
@[simp] theorem State.consumeInput_done : s.consumeInput.done = s.done := rfl
@[simp] theorem State.consumeInput_runState : s.consumeInput.runState = s.runState := rfl
@[simp] theorem State.consumeInput_store : s.consumeInput.store = s.store := rfl
@[simp] theorem State.consumeInput_inputPos : s.consumeInput.inputPos = s.inputPos + 1 := rfl
@[simp] theorem State.consumeInput_output : s.consumeInput.output = s.output := rfl
@[simp] theorem State.consumeInput_diags : s.consumeInput.diags = s.diags := rfl
@[simp] theorem State.consumeInput_continueLatch : s.consumeInput.continueLatch = s.continueLatch := rfl
@[simp] theorem State.consumeInput_ctrl : s.consumeInput.ctrl = s.ctrl := rfl
@[simp] theorem State.consumeInput_awaitingCommand : s.consumeInput.awaitingCommand = s.awaitingCommand := rfl

/-! ## emit -/

@[simp] theorem State.emit_params (b : Byte) : (s.emit b).params = s.params := rfl
@[simp] theorem State.emit_acc (b : Byte) : (s.emit b).acc = s.acc := rfl
@[simp] theorem State.emit_ix (b : Byte) : (s.emit b).ix = s.ix := rfl
@[simp] theorem State.emit_pc (b : Byte) : (s.emit b).pc = s.pc := rfl
@[simp] theorem State.emit_flags (b : Byte) : (s.emit b).flags = s.flags := rfl
@[simp] theorem State.emit_done (b : Byte) : (s.emit b).done = s.done := rfl
@[simp] theorem State.emit_runState (b : Byte) : (s.emit b).runState = s.runState := rfl
@[simp] theorem State.emit_store (b : Byte) : (s.emit b).store = s.store := rfl
@[simp] theorem State.emit_inputPos (b : Byte) : (s.emit b).inputPos = s.inputPos := rfl
@[simp] theorem State.emit_output (b : Byte) : (s.emit b).output = s.output ++ [b] := rfl
@[simp] theorem State.emit_diags (b : Byte) : (s.emit b).diags = s.diags := rfl
@[simp] theorem State.emit_continueLatch (b : Byte) : (s.emit b).continueLatch = s.continueLatch := rfl
@[simp] theorem State.emit_ctrl (b : Byte) : (s.emit b).ctrl = s.ctrl := rfl
@[simp] theorem State.emit_awaitingCommand (b : Byte) : (s.emit b).awaitingCommand = s.awaitingCommand := rfl

/-! ## diagnose -/

@[simp] theorem State.diagnose_params (k : DiagKind) (x : Word) : (s.diagnose k x).params = s.params := rfl
@[simp] theorem State.diagnose_acc (k : DiagKind) (x : Word) : (s.diagnose k x).acc = s.acc := rfl
@[simp] theorem State.diagnose_ix (k : DiagKind) (x : Word) : (s.diagnose k x).ix = s.ix := rfl
@[simp] theorem State.diagnose_pc (k : DiagKind) (x : Word) : (s.diagnose k x).pc = s.pc := rfl
@[simp] theorem State.diagnose_flags (k : DiagKind) (x : Word) : (s.diagnose k x).flags = s.flags := rfl
@[simp] theorem State.diagnose_done (k : DiagKind) (x : Word) : (s.diagnose k x).done = s.done := rfl
@[simp] theorem State.diagnose_runState (k : DiagKind) (x : Word) : (s.diagnose k x).runState = s.runState := rfl
@[simp] theorem State.diagnose_store (k : DiagKind) (x : Word) : (s.diagnose k x).store = s.store := rfl
@[simp] theorem State.diagnose_inputPos (k : DiagKind) (x : Word) : (s.diagnose k x).inputPos = s.inputPos := rfl
@[simp] theorem State.diagnose_output (k : DiagKind) (x : Word) : (s.diagnose k x).output = s.output := rfl
@[simp] theorem State.diagnose_diags (k : DiagKind) (x : Word) : (s.diagnose k x).diags = s.diags ++ [{ kind := k, info := x }] := rfl
@[simp] theorem State.diagnose_continueLatch (k : DiagKind) (x : Word) : (s.diagnose k x).continueLatch = s.continueLatch := rfl
@[simp] theorem State.diagnose_ctrl (k : DiagKind) (x : Word) : (s.diagnose k x).ctrl = s.ctrl := rfl
@[simp] theorem State.diagnose_awaitingCommand (k : DiagKind) (x : Word) : (s.diagnose k x).awaitingCommand = s.awaitingCommand := rfl

/-! ## raise -/

@[simp] theorem State.raise_params (k : DiagKind) (x : Word) : (s.raise k x).params = s.params := rfl
@[simp] theorem State.raise_acc (k : DiagKind) (x : Word) : (s.raise k x).acc = s.acc := rfl
@[simp] theorem State.raise_ix (k : DiagKind) (x : Word) : (s.raise k x).ix = s.ix := rfl
@[simp] theorem State.raise_pc (k : DiagKind) (x : Word) : (s.raise k x).pc = s.pc := rfl
@[simp] theorem State.raise_flags (k : DiagKind) (x : Word) : (s.raise k x).flags = s.flags := rfl
@[simp] theorem State.raise_done (k : DiagKind) (x : Word) : (s.raise k x).done = s.done := rfl
@[simp] theorem State.raise_runState (k : DiagKind) (x : Word) : (s.raise k x).runState = .aborted := rfl
@[simp] theorem State.raise_store (k : DiagKind) (x : Word) : (s.raise k x).store = s.store := rfl
@[simp] theorem State.raise_inputPos (k : DiagKind) (x : Word) : (s.raise k x).inputPos = s.inputPos := rfl
@[simp] theorem State.raise_output (k : DiagKind) (x : Word) : (s.raise k x).output = s.output := rfl
@[simp] theorem State.raise_diags (k : DiagKind) (x : Word) : (s.raise k x).diags = s.diags ++ [{ kind := k, info := x }] := rfl
@[simp] theorem State.raise_continueLatch (k : DiagKind) (x : Word) : (s.raise k x).continueLatch = s.continueLatch := rfl
@[simp] theorem State.raise_ctrl (k : DiagKind) (x : Word) : (s.raise k x).ctrl = s.ctrl := rfl
@[simp] theorem State.raise_awaitingCommand (k : DiagKind) (x : Word) : (s.raise k x).awaitingCommand = s.awaitingCommand := rfl

/-! ## finish -/

@[simp] theorem State.finish_params : s.finish.params = s.params := rfl
@[simp] theorem State.finish_acc : s.finish.acc = s.acc := rfl
@[simp] theorem State.finish_ix : s.finish.ix = s.ix := rfl
@[simp] theorem State.finish_pc : s.finish.pc = s.pc := rfl
@[simp] theorem State.finish_flags : s.finish.flags = s.flags := rfl
@[simp] theorem State.finish_done : s.finish.done = true := rfl
@[simp] theorem State.finish_runState : s.finish.runState = .halted := rfl
@[simp] theorem State.finish_store : s.finish.store = s.store := rfl
@[simp] theorem State.finish_inputPos : s.finish.inputPos = s.inputPos := rfl
@[simp] theorem State.finish_output : s.finish.output = s.output := rfl
@[simp] theorem State.finish_diags : s.finish.diags = s.diags := rfl
@[simp] theorem State.finish_continueLatch : s.finish.continueLatch = s.continueLatch := rfl
@[simp] theorem State.finish_ctrl : s.finish.ctrl = s.ctrl := rfl
@[simp] theorem State.finish_awaitingCommand : s.finish.awaitingCommand = s.awaitingCommand := rfl

/-! ## memWrite -/

@[simp] theorem memWrite_params (a v : Word) : (memWrite s a v).params = s.params := rfl
@[simp] theorem memWrite_acc (a v : Word) : (memWrite s a v).acc = s.acc := rfl
@[simp] theorem memWrite_ix (a v : Word) : (memWrite s a v).ix = s.ix := rfl
@[simp] theorem memWrite_pc (a v : Word) : (memWrite s a v).pc = s.pc := rfl
@[simp] theorem memWrite_flags (a v : Word) : (memWrite s a v).flags = s.flags := rfl
@[simp] theorem memWrite_done (a v : Word) : (memWrite s a v).done = s.done := rfl
@[simp] theorem memWrite_runState (a v : Word) : (memWrite s a v).runState = s.runState := rfl
@[simp] theorem memWrite_store (a v : Word) : (memWrite s a v).store = s.store.write (phys s.params a) v := rfl
@[simp] theorem memWrite_inputPos (a v : Word) : (memWrite s a v).inputPos = s.inputPos := rfl
@[simp] theorem memWrite_output (a v : Word) : (memWrite s a v).output = s.output := rfl
@[simp] theorem memWrite_diags (a v : Word) : (memWrite s a v).diags = s.diags := rfl
@[simp] theorem memWrite_continueLatch (a v : Word) : (memWrite s a v).continueLatch = s.continueLatch := rfl
@[simp] theorem memWrite_ctrl (a v : Word) : (memWrite s a v).ctrl = s.ctrl := rfl
@[simp] theorem memWrite_awaitingCommand (a v : Word) : (memWrite s a v).awaitingCommand = s.awaitingCommand := rfl

/-! ## loadAcc -/

@[simp] theorem State.loadAcc_params (t : Word) : (s.loadAcc t).params = s.params := rfl
@[simp] theorem State.loadAcc_acc (t : Word) : (s.loadAcc t).acc = t := rfl
@[simp] theorem State.loadAcc_ix (t : Word) : (s.loadAcc t).ix = s.ix := rfl
@[simp] theorem State.loadAcc_pc (t : Word) : (s.loadAcc t).pc = s.pc := rfl
@[simp] theorem State.loadAcc_flags (t : Word) : (s.loadAcc t).flags = s.flags.withZN t := rfl
@[simp] theorem State.loadAcc_done (t : Word) : (s.loadAcc t).done = s.done := rfl
@[simp] theorem State.loadAcc_runState (t : Word) : (s.loadAcc t).runState = s.runState := rfl
@[simp] theorem State.loadAcc_store (t : Word) : (s.loadAcc t).store = s.store := rfl
@[simp] theorem State.loadAcc_inputPos (t : Word) : (s.loadAcc t).inputPos = s.inputPos := rfl
@[simp] theorem State.loadAcc_output (t : Word) : (s.loadAcc t).output = s.output := rfl
@[simp] theorem State.loadAcc_diags (t : Word) : (s.loadAcc t).diags = s.diags := rfl
@[simp] theorem State.loadAcc_continueLatch (t : Word) : (s.loadAcc t).continueLatch = s.continueLatch := rfl
@[simp] theorem State.loadAcc_ctrl (t : Word) : (s.loadAcc t).ctrl = s.ctrl := rfl
@[simp] theorem State.loadAcc_awaitingCommand (t : Word) : (s.loadAcc t).awaitingCommand = s.awaitingCommand := rfl

/-! ## commitArith -/

@[simp] theorem State.commitArith_params (r : ArithResult) : (s.commitArith r).params = s.params := rfl
@[simp] theorem State.commitArith_acc (r : ArithResult) : (s.commitArith r).acc = r.res := rfl
@[simp] theorem State.commitArith_ix (r : ArithResult) : (s.commitArith r).ix = s.ix := rfl
@[simp] theorem State.commitArith_pc (r : ArithResult) : (s.commitArith r).pc = s.pc := rfl
@[simp] theorem State.commitArith_flags (r : ArithResult) : (s.commitArith r).flags = r.flags := rfl
@[simp] theorem State.commitArith_done (r : ArithResult) : (s.commitArith r).done = s.done := rfl
@[simp] theorem State.commitArith_runState (r : ArithResult) : (s.commitArith r).runState = s.runState := rfl
@[simp] theorem State.commitArith_store (r : ArithResult) : (s.commitArith r).store = s.store := rfl
@[simp] theorem State.commitArith_inputPos (r : ArithResult) : (s.commitArith r).inputPos = s.inputPos := rfl
@[simp] theorem State.commitArith_output (r : ArithResult) : (s.commitArith r).output = s.output := rfl
@[simp] theorem State.commitArith_diags (r : ArithResult) : (s.commitArith r).diags = s.diags := rfl
@[simp] theorem State.commitArith_continueLatch (r : ArithResult) : (s.commitArith r).continueLatch = s.continueLatch := rfl
@[simp] theorem State.commitArith_ctrl (r : ArithResult) : (s.commitArith r).ctrl = s.ctrl := rfl
@[simp] theorem State.commitArith_awaitingCommand (r : ArithResult) : (s.commitArith r).awaitingCommand = s.awaitingCommand := rfl

end Sys2Proof.Machine
end

