-- ==== Sys2Proof/Laws/Control.lean ====
section
/-! SUPPORT. The control point: what it can do, and what it never touches. -/

namespace Sys2Proof.Machine

/-- A command read is never an unrecognised one. -/
theorem readCommand_recognised {l rest : List Command} {c : Command} (h : readCommand l = some (c, rest)) :
    c ≠ .unrecognised := by
  induction l with
  | nil => cases h
  | cons x xs ih =>
    cases x with
    | unrecognised => exact ih h
    | step => cases h; decide
    | cont => cases h; decide
    | quit => cases h; decide

/-- Unrecognised commands in front are read and dropped. -/
theorem readCommand_append {junk : List Command} (h : ∀ c ∈ junk, c = .unrecognised) (rest : List Command) :
    readCommand (junk ++ rest) = readCommand rest := by
  induction junk with
  | nil => rfl
  | cons c cs ih =>
    obtain rfl := h c (by simp)
    exact ih fun x hx => h x (by simp [hx])

/-- No command can be read exactly when all are unrecognised. -/
theorem readCommand_none_iff (l : List Command) : readCommand l = none ↔ ∀ c ∈ l, c = .unrecognised := by
  induction l with
  | nil => simp [readCommand]
  | cons c cs ih => cases c <;> simp [readCommand, ih]

/-- The control point cannot be left exactly when the latch is 0 and no recognised command is there. -/
theorem commandAvailable_false_iff (s : State) :
    commandAvailable s = false ↔ s.continueLatch = false ∧ ∀ c ∈ s.ctrl, c = .unrecognised := by
  rw [← readCommand_none_iff]
  simp [commandAvailable]

/-- Everything the control point can do. -/
theorem controlPoint_cases (s : State) :
    (s.continueLatch = true ∧ controlPoint s = { s with awaitingCommand := false }) ∨
    (s.continueLatch = false ∧ ∃ c rest, readCommand s.ctrl = some (c, rest) ∧
      controlPoint s = applyCommand { s with ctrl := rest, awaitingCommand := false } c) ∨
    (s.continueLatch = false ∧ readCommand s.ctrl = none ∧
      controlPoint s = { s with ctrl := [], awaitingCommand := decide (s.runState = .running) }) := by
  unfold controlPoint
  by_cases hl : s.continueLatch = true
  · exact .inl ⟨hl, by simp [hl]⟩
  · have hf : s.continueLatch = false := by simpa using hl
    cases hr : readCommand s.ctrl with
    | none => exact .inr (.inr ⟨hf, rfl, by simp [hf]⟩)
    | some p => exact .inr (.inl ⟨hf, p.1, p.2, rfl, by simp [hf]⟩)

/-- The fields a command cannot touch. -/
theorem applyCommand_keeps (s : State) (c : Command) :
    (applyCommand s c).params = s.params ∧ (applyCommand s c).acc = s.acc ∧ (applyCommand s c).ix = s.ix ∧
    (applyCommand s c).pc = s.pc ∧ (applyCommand s c).flags = s.flags ∧ (applyCommand s c).done = s.done ∧
    (applyCommand s c).store = s.store ∧ (applyCommand s c).inputPos = s.inputPos ∧
    (applyCommand s c).output = s.output ∧ (applyCommand s c).diags = s.diags ∧
    (applyCommand s c).awaitingCommand = s.awaitingCommand := by
  cases c <;> simp [applyCommand]

@[simp] theorem controlPoint_params (s : State) : (controlPoint s).params = s.params := by
  rcases controlPoint_cases s with ⟨_, h⟩ | ⟨_, c, rest, _, h⟩ | ⟨_, _, h⟩ <;> rw [h]
  exact (applyCommand_keeps _ c).1

@[simp] theorem controlPoint_acc (s : State) : (controlPoint s).acc = s.acc := by
  rcases controlPoint_cases s with ⟨_, h⟩ | ⟨_, c, rest, _, h⟩ | ⟨_, _, h⟩ <;> rw [h]
  exact (applyCommand_keeps _ c).2.1

@[simp] theorem controlPoint_ix (s : State) : (controlPoint s).ix = s.ix := by
  rcases controlPoint_cases s with ⟨_, h⟩ | ⟨_, c, rest, _, h⟩ | ⟨_, _, h⟩ <;> rw [h]
  exact (applyCommand_keeps _ c).2.2.1

@[simp] theorem controlPoint_pc (s : State) : (controlPoint s).pc = s.pc := by
  rcases controlPoint_cases s with ⟨_, h⟩ | ⟨_, c, rest, _, h⟩ | ⟨_, _, h⟩ <;> rw [h]
  exact (applyCommand_keeps _ c).2.2.2.1

@[simp] theorem controlPoint_flags (s : State) : (controlPoint s).flags = s.flags := by
  rcases controlPoint_cases s with ⟨_, h⟩ | ⟨_, c, rest, _, h⟩ | ⟨_, _, h⟩ <;> rw [h]
  exact (applyCommand_keeps _ c).2.2.2.2.1

@[simp] theorem controlPoint_done (s : State) : (controlPoint s).done = s.done := by
  rcases controlPoint_cases s with ⟨_, h⟩ | ⟨_, c, rest, _, h⟩ | ⟨_, _, h⟩ <;> rw [h]
  exact (applyCommand_keeps _ c).2.2.2.2.2.1

@[simp] theorem controlPoint_store (s : State) : (controlPoint s).store = s.store := by
  rcases controlPoint_cases s with ⟨_, h⟩ | ⟨_, c, rest, _, h⟩ | ⟨_, _, h⟩ <;> rw [h]
  exact (applyCommand_keeps _ c).2.2.2.2.2.2.1

@[simp] theorem controlPoint_inputPos (s : State) : (controlPoint s).inputPos = s.inputPos := by
  rcases controlPoint_cases s with ⟨_, h⟩ | ⟨_, c, rest, _, h⟩ | ⟨_, _, h⟩ <;> rw [h]
  exact (applyCommand_keeps _ c).2.2.2.2.2.2.2.1

@[simp] theorem controlPoint_output (s : State) : (controlPoint s).output = s.output := by
  rcases controlPoint_cases s with ⟨_, h⟩ | ⟨_, c, rest, _, h⟩ | ⟨_, _, h⟩ <;> rw [h]
  exact (applyCommand_keeps _ c).2.2.2.2.2.2.2.2.1

@[simp] theorem controlPoint_diags (s : State) : (controlPoint s).diags = s.diags := by
  rcases controlPoint_cases s with ⟨_, h⟩ | ⟨_, c, rest, _, h⟩ | ⟨_, _, h⟩ <;> rw [h]
  exact (applyCommand_keeps _ c).2.2.2.2.2.2.2.2.2.1

end Sys2Proof.Machine
end

