-- ==== Sys2Proof/Laws/Encoding.lean ====
section
/-! SUPPORT. The fields of a packed word, and decoding one. -/

namespace Sys2Proof

theorem fieldOP_packWord (op : Byte) (m : BitVec 2) (opr : Word) : fieldOP (packWord op m opr) = op := by
  apply BitVec.eq_of_getLsbD_eq
  intro i hi
  simp only [fieldOP, packWord, BitVec.getLsbD_extractLsb', BitVec.getLsbD_append]
  simp [hi, show ¬ 24 + i < 16 by omega, show ¬ 24 + i - 16 < 2 by omega, show ¬ 24 + i - 16 - 2 < 6 by omega,
    show 24 + i - 16 - 2 - 6 = i by omega]

theorem fieldRSV_packWord (op : Byte) (m : BitVec 2) (opr : Word) : fieldRSV (packWord op m opr) = 0 := by
  apply BitVec.eq_of_getLsbD_eq
  intro i hi
  simp only [fieldRSV, packWord, BitVec.getLsbD_extractLsb', BitVec.getLsbD_append]
  simp [hi, show ¬ 18 + i < 16 by omega, show ¬ 18 + i - 16 < 2 by omega, show 18 + i - 16 - 2 < 6 by omega]

theorem fieldM_packWord (op : Byte) (m : BitVec 2) (opr : Word) : fieldM (packWord op m opr) = m := by
  apply BitVec.eq_of_getLsbD_eq
  intro i hi
  simp only [fieldM, packWord, BitVec.getLsbD_extractLsb', BitVec.getLsbD_append]
  simp [hi, show ¬ 16 + i < 16 by omega, show 16 + i - 16 = i by omega]

theorem fieldOPR_packWord (op : Byte) (m : BitVec 2) (opr : Word) : fieldOPR (packWord op m opr) = opr := by
  apply BitVec.eq_of_getLsbD_eq
  intro i hi
  simp only [fieldOPR, packWord, BitVec.getLsbD_extractLsb', BitVec.getLsbD_append]
  simp [hi]

/-- Decoding a packed word is decoding its fields. -/
theorem decode_packWord (op : Byte) (m : BitVec 2) (opr : Word) :
    decode (packWord op m opr) = decodeFields op.toNat m.toNat opr := by
  simp [decode, fieldOP_packWord, fieldRSV_packWord, fieldM_packWord, fieldOPR_packWord]

/-- A word is its four bytes, most significant first. -/
theorem join_bytes (w : InstrWord) :
    (w.extractLsb' 24 8 ++ w.extractLsb' 16 8 ++ w.extractLsb' 8 8 ++ w.extractLsb' 0 8 : InstrWord) = w := by
  apply BitVec.eq_of_getLsbD_eq
  intro i hi
  simp only [BitVec.getLsbD_append, BitVec.getLsbD_extractLsb']
  by_cases h0 : i < 8
  · simp [h0]
  · by_cases h1 : i < 16
    · simp [h0, show i - 8 < 8 by omega, show 8 + (i - 8) = i by omega]
    · by_cases h2 : i < 24
      · simp [h0, show ¬ i - 8 < 8 by omega, show i - 8 - 8 < 8 by omega, show 16 + (i - 8 - 8) = i by omega]
      · simp [h0, show ¬ i - 8 < 8 by omega, show ¬ i - 8 - 8 < 8 by omega,
          show i - 8 - 8 - 8 < 8 by omega, show 24 + (i - 8 - 8 - 8) = i by omega]

/-- Decoding the bytes of a word, whatever follows them, is decoding the word. -/
theorem decodeBytes_bytesOfWord (w : InstrWord) (rest : List Byte) :
    decodeBytes (bytesOfWord w ++ rest) =
      match decode w with
      | .ok i => .ok (i, rest)
      | .error e => .error e := by
  simp only [bytesOfWord, decodeBytes, List.cons_append, List.nil_append, join_bytes] <;>
    cases decode w <;> rfl

end Sys2Proof
end

