-- ==== Sys2Proof/Laws/Memory.lean ====
section
/-! SUPPORT. The store: reading after writing, and the canonical form kept by every write. -/

namespace Sys2Proof.Machine

/-- Every listed cell lies above the index: nothing below or at it is listed. -/
abbrev Memory.Above (m : Memory) (i : Nat) : Prop := ∀ cell ∈ m, i < cell.1

theorem Memory.read_of_above {m : Memory} {i : Nat} (h : m.Above i) : m.read i = 0 := by
  induction m with
  | nil => rfl
  | cons cell rest ih =>
    obtain ⟨k, w⟩ := cell
    have hk : i < k := h (k, w) (by simp)
    have hr : Memory.Above rest i := fun c hc => h c (by simp [hc])
    simp [Memory.read, ih hr, show k ≠ i by omega]

theorem Memory.wf_tail {cell : MemCell} {rest : Memory} (h : Memory.wf (cell :: rest)) : Memory.wf rest :=
  ⟨(List.pairwise_cons.mp h.1).2, fun c hc => h.2 c (by simp [hc])⟩

theorem Memory.wf_above {k : Nat} {w : Word} {rest : Memory} (h : Memory.wf ((k, w) :: rest)) :
    Memory.Above rest k :=
  (List.pairwise_cons.mp h.1).1

theorem Memory.wf_cons {k : Nat} {w : Word} {rest : Memory} (hw : w ≠ 0) (ha : Memory.Above rest k)
    (hr : Memory.wf rest) : Memory.wf ((k, w) :: rest) := by
  refine ⟨List.pairwise_cons.mpr ⟨ha, hr.1⟩, fun c hc => ?_⟩
  rcases List.mem_cons.mp hc with rfl | hc
  · exact hw
  · exact hr.2 c hc

theorem Memory.nil_wf : Memory.wf [] := by simp [Memory.wf]

theorem Memory.keep_wf {rest : Memory} {i : Nat} {w : Word} (hr : Memory.wf rest) (ha : Memory.Above rest i) :
    Memory.wf (Memory.keep i w rest) := by
  unfold Memory.keep
  split
  · exact hr
  · exact Memory.wf_cons ‹_› ha hr

theorem Memory.read_keep_same {rest : Memory} {i : Nat} {w : Word} (ha : Memory.Above rest i) :
    (Memory.keep i w rest).read i = w := by
  unfold Memory.keep
  split
  · simp [Memory.read_of_above ha, *]
  · simp [Memory.read]

theorem Memory.read_keep_other {rest : Memory} {i j : Nat} {w : Word} (hne : j ≠ i) :
    (Memory.keep i w rest).read j = rest.read j := by
  unfold Memory.keep
  split
  · rfl
  · simp [Memory.read, Ne.symm hne]

theorem Memory.keep_above {rest : Memory} {i b : Nat} {w : Word} (hb : b < i) (hr : Memory.Above rest b) :
    Memory.Above (Memory.keep i w rest) b := by
  unfold Memory.keep
  split
  · exact hr
  · intro c hc
    rcases List.mem_cons.mp hc with rfl | hc
    · exact hb
    · exact hr c hc

/-- A write lists nothing at or below an index that lay below everything listed and written. -/
theorem Memory.write_above {m : Memory} {i b : Nat} {w : Word} (hm : m.Above b) (hb : b < i) :
    Memory.Above (m.write i w) b := by
  induction m with
  | nil => exact Memory.keep_above hb (by intro c hc; cases hc)
  | cons cell rest ih =>
    obtain ⟨k, old⟩ := cell
    have hk : b < k := hm (k, old) (by simp)
    have hr : Memory.Above rest b := fun c hc => hm c (by simp [hc])
    simp only [Memory.write]
    split
    · exact Memory.keep_above hb hm
    · split
      · exact Memory.keep_above hb hr
      · intro c hc
        rcases List.mem_cons.mp hc with rfl | hc
        · exact hk
        · exact ih hr c hc

/-- Every write keeps the canonical form. -/
theorem Memory.write_wf {m : Memory} (h : m.wf) (i : Nat) (w : Word) : (m.write i w).wf := by
  induction m with
  | nil => exact Memory.keep_wf Memory.nil_wf (by intro c hc; cases hc)
  | cons cell rest ih =>
    obtain ⟨k, old⟩ := cell
    have hr := Memory.wf_tail h
    have ha := Memory.wf_above h
    simp only [Memory.write]
    split
    · refine Memory.keep_wf h fun c hc => ?_
      rcases List.mem_cons.mp hc with rfl | hc
      · assumption
      · have := ha c hc
        omega
    · split
      · subst_vars
        exact Memory.keep_wf hr ha
      · exact Memory.wf_cons (h.2 (k, old) (by simp)) (Memory.write_above ha (by omega)) (ih hr)

/-- A cell reads back what was written to it. -/
theorem Memory.read_write_same {m : Memory} (h : m.wf) (i : Nat) (w : Word) : (m.write i w).read i = w := by
  induction m with
  | nil => exact Memory.read_keep_same (by intro c hc; cases hc)
  | cons cell rest ih =>
    obtain ⟨k, old⟩ := cell
    have hr := Memory.wf_tail h
    have ha := Memory.wf_above h
    simp only [Memory.write]
    split
    · refine Memory.read_keep_same fun c hc => ?_
      rcases List.mem_cons.mp hc with rfl | hc
      · assumption
      · have := ha c hc
        omega
    · split
      · subst_vars
        exact Memory.read_keep_same ha
      · rw [Memory.read, if_neg (by omega)]
        exact ih hr

/-- Every other cell reads as before. -/
theorem Memory.read_write_other (m : Memory) {i j : Nat} (hne : j ≠ i) (w : Word) :
    (m.write i w).read j = m.read j := by
  induction m with
  | nil => exact Memory.read_keep_other hne
  | cons cell rest ih =>
    obtain ⟨k, old⟩ := cell
    simp only [Memory.write]
    split
    · exact Memory.read_keep_other hne
    · split
      · subst_vars
        rw [Memory.read_keep_other hne, Memory.read, if_neg (Ne.symm hne)]
      · simp only [Memory.read]
        split
        · rfl
        · exact ih

/-- Reset memory is in canonical form. -/
theorem reset_store_wf : State.reset.store.wf := Memory.nil_wf

/-- A store by the machine keeps the canonical form. -/
theorem memWrite_store_wf (s : State) (h : s.store.wf) (a v : Word) : (memWrite s a v).store.wf :=
  Memory.write_wf h _ _

end Sys2Proof.Machine
end

