-- ==== Sys2Proof/Laws/Exec.lean ====
section
/-! SUPPORT. What an executed instruction can do, said once. -/

namespace Sys2Proof.Machine

@[simp] theorem jumpIf_taken (s : State) (target : Word) : s.jumpIf s.flags.z target = s.setPc target := by
  simp [State.jumpIf]

theorem jumpIf_cases (s : State) (polarity : Bool) (target : Word) :
    (s.flags.z = polarity ∧ s.jumpIf polarity target = s.setPc target) ∨
      (s.flags.z ≠ polarity ∧ s.jumpIf polarity target = s) := by
  by_cases h : s.flags.z = polarity
  · exact .inl ⟨h, by simp [State.jumpIf, h]⟩
  · exact .inr ⟨h, by simp [State.jumpIf, h]⟩

/-- LSL answers a state, with the places its count gives, or refuses the count. -/
theorem execLsl_cases {c : Word} {s t : State} (h : execLsl c s = .next t) :
    ∃ k, shiftPlaces s.params.shiftOverwidth c = some k ∧
      t = (s.setAcc (shiftLeft s.acc k)).setFlags (s.flags.withC (carryLeft s.acc)) := by
  simp only [execLsl] at h
  split at h
  · cases h
  · rename_i k hk
    exact ⟨k, hk, (Host.Outcome.next.inj h).symm⟩

/-- LSR answers a state, with the places its count gives, or refuses the count. -/
theorem execLsr_cases {c : Word} {s t : State} (h : execLsr c s = .next t) :
    ∃ k, shiftPlaces s.params.shiftOverwidth c = some k ∧
      t = (s.setAcc (shiftRight s.acc k)).setFlags (s.flags.withC (carryRight s.acc)) := by
  simp only [execLsr] at h
  split at h
  · cases h
  · rename_i k hk
    exact ⟨k, hk, (Host.Outcome.next.inj h).symm⟩

/-- IN answers a state exactly when INPUT has a byte at the position. -/
theorem execInp_cases {s t : State} (h : execInp s = .next t) :
    ∃ b, inputByte s = some b ∧ t = s.consumeInput.loadAcc (widenByte b) := by
  simp only [execInp] at h
  split at h
  · cases h
  · rename_i b hb
    exact ⟨b, hb, (Host.Outcome.next.inj h).symm⟩

/-- Everything an instruction can do when it answers a state: which of these forms the state has. -/
inductive Effect (i : Instr) (s : State) : State → Prop where
  | accFlags (v : Word) (f : Flags) : Effect i s ((s.setAcc v).setFlags f)
  | flagsOnly (f : Flags) : Effect i s (s.setFlags f)
  | index (v : Word) : Effect i s (s.setIx v)
  | store (a : Word) (h : i = .sto a) : Effect i s (memWrite s a s.acc)
  | jump (target : Word) : Effect i s (s.setPc target)
  | fall : Effect i s s
  | input (b : Byte) (h : i = .inp) (hb : inputByte s = some b) : Effect i s (s.consumeInput.loadAcc (widenByte b))
  | output (h : i = .out) : Effect i s (s.emit (lowByte s.acc))
  | finish (h : i = .endRun) : Effect i s s.finish
  | unknown (h : i = .unknown) : Effect i s (s.diagnose .unknownInstruction (s.pc - 1))

theorem jumpIf_effect (i : Instr) (s : State) (polarity : Bool) (target : Word) :
    Effect i s (s.jumpIf polarity target) := by
  rcases jumpIf_cases s polarity target with ⟨_, h⟩ | ⟨_, h⟩ <;> rw [h]
  · exact .jump target
  · exact .fall

/-- The effect of any instruction that answers a state. -/
theorem exec_effect {i : Instr} {s t : State} (h : exec i s = .next t) : Effect i s t := by
  cases i with
  | unknown => cases h; exact .unknown rfl
  | out => cases h; exact .output rfl
  | inp => obtain ⟨b, hb, rfl⟩ := execInp_cases h; exact .input b rfl hb
  | ldd a => cases h; exact .accFlags _ _
  | ldm v => cases h; exact .accFlags _ _
  | ldi p => cases h; exact .accFlags _ _
  | ldx b => cases h; exact .accFlags _ _
  | ldr v => cases h; exact .index _
  | mov => cases h; exact .index _
  | subDirect a => cases h; exact .accFlags _ _
  | subImmediate v => cases h; exact .accFlags _ _
  | sto a => cases h; exact .store a rfl
  | addDirect a => cases h; exact .accFlags _ _
  | addImmediate v => cases h; exact .accFlags _ _
  | incIx => cases h; exact .index _
  | incAcc => cases h; exact .accFlags _ _
  | decIx => cases h; exact .index _
  | decAcc => cases h; exact .accFlags _ _
  | lsl c => obtain ⟨k, _, rfl⟩ := execLsl_cases h; exact .accFlags _ _
  | lsr c => obtain ⟨k, _, rfl⟩ := execLsr_cases h; exact .accFlags _ _
  | xorDirect a => cases h; exact .accFlags _ _
  | xorImmediate v => cases h; exact .accFlags _ _
  | orDirect a => cases h; exact .accFlags _ _
  | orImmediate v => cases h; exact .accFlags _ _
  | cmpDirect a => cases h; exact .flagsOnly _
  | cmpImmediate v => cases h; exact .flagsOnly _
  | jpeDirect t => cases h; exact jumpIf_effect _ _ _ _
  | jpeImmediate t => cases h; exact jumpIf_effect _ _ _ _
  | jpnDirect t => cases h; exact jumpIf_effect _ _ _ _
  | jpnImmediate t => cases h; exact jumpIf_effect _ _ _ _
  | endRun => cases h; exact .finish rfl

/-- No instruction writes what belongs to the driver or the environment. -/
theorem exec_driver_fields {i : Instr} {s t : State} (h : exec i s = .next t) :
    t.continueLatch = s.continueLatch ∧ t.ctrl = s.ctrl ∧ t.awaitingCommand = s.awaitingCommand := by
  cases exec_effect h <;> simp

/-- The run state after an instruction: Halted after END, else as before. -/
theorem exec_runState {i : Instr} {s t : State} (h : exec i s = .next t) :
    t.runState = if i = .endRun then .halted else s.runState := by
  cases i <;> first
    | (cases h; rfl)
    | (obtain ⟨_, _, rfl⟩ := execLsl_cases h; rfl)
    | (obtain ⟨_, _, rfl⟩ := execLsr_cases h; rfl)
    | (obtain ⟨_, _, rfl⟩ := execInp_cases h; rfl)
    | (cases h; simp [State.jumpIf]; split <;> rfl)

end Sys2Proof.Machine
end

