-- ==== Sys2Proof/Laws/Flags.lean ====
section
/-! SUPPORT. The flag computations, each read as what it says of the value; the fields of the checked arithmetic; and the
wrap of an exact result that one addition or subtraction can reach. -/

namespace Sys2Proof.Machine

@[simp] theorem zeroFlag_iff (t : Word) : zeroFlag t = true ↔ t = 0 := by simp [zeroFlag]

@[simp] theorem zeroFlag_false_iff (t : Word) : zeroFlag t = false ↔ t ≠ 0 := by simp [zeroFlag]

@[simp] theorem negativeFlag_iff (t : Word) : negativeFlag t = true ↔ t.toInt < 0 := by simp [negativeFlag]

@[simp] theorem negativeFlag_false_iff (t : Word) : negativeFlag t = false ↔ ¬ t.toInt < 0 := by
  simp [negativeFlag]

@[simp] theorem overflows_iff (r : Int) : overflows r = true ↔ (32767 < r ∨ r < -32768) := by simp [overflows]

@[simp] theorem overflows_false_iff (r : Int) : overflows r = false ↔ (r ≤ 32767 ∧ -32768 ≤ r) := by
  simp [overflows]

@[simp] theorem withZN_z (f : Flags) (t : Word) : (f.withZN t).z = zeroFlag t := rfl
@[simp] theorem withZN_n (f : Flags) (t : Word) : (f.withZN t).n = negativeFlag t := rfl
@[simp] theorem withZN_v (f : Flags) (t : Word) : (f.withZN t).v = f.v := rfl
@[simp] theorem withZN_c (f : Flags) (t : Word) : (f.withZN t).c = f.c := rfl
@[simp] theorem withC_z (f : Flags) (b : Bool) : (f.withC b).z = f.z := rfl
@[simp] theorem withC_n (f : Flags) (b : Bool) : (f.withC b).n = f.n := rfl
@[simp] theorem withC_v (f : Flags) (b : Bool) : (f.withC b).v = f.v := rfl
@[simp] theorem withC_c (f : Flags) (b : Bool) : (f.withC b).c = b := rfl

@[simp] theorem exact_add (a b : Int) : ArithOp.add.exact a b = a + b := rfl
@[simp] theorem exact_sub (a b : Int) : ArithOp.sub.exact a b = a - b := rfl

variable (op : ArithOp) (a b : Word)

@[simp] theorem arith_res : (arith op a b).res = wrap16 (op.exact a.toInt b.toInt) := rfl
@[simp] theorem arith_z : (arith op a b).flags.z = zeroFlag (wrap16 (op.exact a.toInt b.toInt)) := rfl
@[simp] theorem arith_n : (arith op a b).flags.n = negativeFlag (wrap16 (op.exact a.toInt b.toInt)) := rfl
@[simp] theorem arith_v : (arith op a b).flags.v = overflows (op.exact a.toInt b.toInt) := rfl
@[simp] theorem arith_c : (arith op a b).flags.c = overflows (op.exact a.toInt b.toInt) := rfl

/-- A word read as signed lies in -32768..32767 (rule R8). -/
theorem word_bounds : -32768 ≤ a.toInt ∧ a.toInt ≤ 32767 := by
  have h := a.isLt
  rw [BitVec.toInt_eq_toNat_cond]
  split <;> omega

/-- A word is 0 exactly when its signed reading is. -/
theorem word_eq_zero_iff : a = 0 ↔ a.toInt = 0 := by
  rw [← BitVec.toInt_inj]
  rfl

/-- The wrap of an exact result within one turn of the signed range. -/
theorem wrap16_cases {r : Int} (lo : -65536 ≤ r) (hi : r ≤ 65535) :
    (32767 < r ∧ (wrap16 r).toInt = r - 65536) ∨ (r < -32768 ∧ (wrap16 r).toInt = r + 65536) ∨
      (-32768 ≤ r ∧ r ≤ 32767 ∧ (wrap16 r).toInt = r) := by
  simp only [wrap16, BitVec.toInt_ofInt, Int.bmod_def]
  split <;> omega

end Sys2Proof.Machine
end

