-- ==== Sys2Proof/Laws/Step.lean ====
section
/-! SUPPORT. What a step can do, said once. -/

namespace Sys2Proof.Machine

/-- An instruction and its control point answer a state only when the instruction does. -/
theorem atControlPoint_next {r : Result} {t : State} (h : atControlPoint r = .next t) :
    ∃ u, r = .next u ∧ t = controlPoint u := by
  cases r with
  | next u => exact ⟨u, rfl, (Host.Outcome.next.inj h).symm⟩
  | fault f => cases h
  | refused r => cases h

/-- A fetched word answers a state only when it decodes and its instruction answers one. -/
theorem executeWord_next {w : InstrWord} {s t : State} (h : executeWord w s = .next t) :
    ∃ i u, decode w = .ok i ∧ exec i s.advancePc = .next u ∧ t = controlPoint u := by
  unfold executeWord at h
  split at h
  · cases h
  · rename_i i hi
    obtain ⟨u, hu, ht⟩ := atControlPoint_next h
    exact ⟨i, u, hi, hu, ht⟩

/-- A step is a terminal stop, a resumed control point, or an iteration of the loop. -/
theorem step_running {s : State} (h : s.runState = .running) :
    step s = if s.awaitingCommand then resumeControl s else iterate s := by
  simp [step, driverStep, h]

/-- An iteration of a program within the bound on its length (rule R6). -/
theorem iterate_fit {s : State} (h : s.params.prog.length ≤ 65535) :
    iterate s = match fetch s with
      | none => .next (s.raise .fetchPastEnd s.pc)
      | some w => executeWord w s := by
  rw [iterate, if_neg (by simpa using h)] <;>
    cases fetch s <;> rfl

/-- An iteration of a program longer than the bound. -/
theorem iterate_tooLong {s : State} (h : 65535 < s.params.prog.length) : iterate s = .refused .programTooLong := by
  rw [iterate, if_pos (by simpa using h)]

/-- A fetched word that decodes. -/
theorem executeWord_ok {w : InstrWord} {i : Instr} (h : decode w = .ok i) (s : State) :
    executeWord w s = atControlPoint (exec i s.advancePc) := by
  simp [executeWord, h]

/-- A fetched word that is reserved. -/
theorem executeWord_reserved {w : InstrWord} (h : ¬ ∃ i, decode w = .ok i) (s : State) :
    executeWord w s = .refused (.reservedEncoding w) := by
  unfold executeWord
  split
  · rfl
  · exact absurd ⟨_, ‹_›⟩ h

/-- Everything a step that answers a state can be: the completion of a control point the driver was left waiting at, the
raising of FetchPastEnd, or an executed instruction with its control point. -/
theorem step_cases {s t : State} (h : step s = .next t) :
    s.runState = .running ∧
    ((s.awaitingCommand = true ∧ commandAvailable s = true ∧ t = controlPoint s) ∨
     (s.awaitingCommand = false ∧ fetch s = none ∧ t = s.raise .fetchPastEnd s.pc) ∨
     (s.awaitingCommand = false ∧ ∃ w i u, fetch s = some w ∧ decode w = .ok i ∧
        exec i s.advancePc = .next u ∧ t = controlPoint u)) := by
  have hrun : s.runState = .running := by
    simp only [step, driverStep] at h
    split at h <;> first | cases h | assumption
  refine ⟨hrun, ?_⟩
  rw [step_running hrun] at h
  cases ha : s.awaitingCommand with
  | true =>
    simp only [ha, resumeControl] at h
    cases hc : commandAvailable s with
    | true => simp [hc] at h; exact .inl ⟨rfl, rfl, h.symm⟩
    | false => simp [hc] at h
  | false =>
    simp only [ha, iterate] at h
    split at h
    · contradiction
    · split at h
      · cases h
      · split at h
        · rename_i hf
          exact .inr (.inl ⟨rfl, hf, (Host.Outcome.next.inj h).symm⟩)
        · rename_i w hf
          obtain ⟨i, u, hi, hu, ht⟩ := executeWord_next h
          exact .inr (.inr ⟨rfl, w, i, u, hf, hi, hu, ht⟩)

/-- A run whose first step answers a state. -/
theorem run_succ_next {n : Nat} {s t : State} (h : step s = .next t) :
    Sys2Proof.core.run (n + 1) s = Sys2Proof.core.run n t := by
  have e : Sys2Proof.core.step s = .next t := h
  simp only [Host.Core.run, e]

/-- A run whose first step is a named stop. -/
theorem run_succ_fault {n : Nat} {s : State} {f : Fault} (h : step s = .fault f) :
    Sys2Proof.core.run (n + 1) s = .fault f := by
  have e : Sys2Proof.core.step s = .fault f := h
  simp only [Host.Core.run, e]

/-- A run whose first step is a refusal. -/
theorem run_succ_refused {n : Nat} {s : State} {r : Refusal} (h : step s = .refused r) :
    Sys2Proof.core.run (n + 1) s = .refused r := by
  have e : Sys2Proof.core.step s = .refused r := h
  simp only [Host.Core.run, e]

/-- Placing an element in a list: it is found at its position. -/
theorem placeAt_get {α : Type} (fill x : α) (n : Nat) (l : List α) : (placeAt fill x n l)[n]? = some x := by
  induction n generalizing l with
  | zero => cases l <;> rfl
  | succ n ih => cases l <;> simp [placeAt, ih]

end Sys2Proof.Machine
end

