-- ==== Sys2Proof/Laws/Interface.lean ====
section
/-! SUPPORT. What the ports of a step carry, said once. -/

namespace Sys2Proof.Machine

@[simp] theorem DataAccess.request_read (a v : Word) :
    (DataAccess.read a v).request = { address := a, wdata := 0, we := false } := rfl
@[simp] theorem DataAccess.request_write (a v : Word) :
    (DataAccess.write a v).request = { address := a, wdata := v, we := true } := rfl
@[simp] theorem DataAccess.readData_read (a v : Word) : (DataAccess.read a v).readData = some v := rfl
@[simp] theorem DataAccess.readData_write (a v : Word) : (DataAccess.write a v).readData = none := rfl

/-- A request with the strobe 0 leaves the store. -/
@[simp] theorem DataRequest.applyTo_read (p : Params) (m : Memory) (a v : Word) :
    DataRequest.applyTo p m { address := a, wdata := v, we := false } = m := rfl

/-- A request with the strobe 1 writes the cell its address selects. -/
@[simp] theorem DataRequest.applyTo_write (p : Params) (m : Memory) (a v : Word) :
    DataRequest.applyTo p m { address := a, wdata := v, we := true } = m.write (phys p a) v := rfl

/-- The instruction a step executes is the one its word decodes to, between instructions of a running machine. -/
theorem executedInstr_eq_some {s : State} {i : Instr} :
    executedInstr s = some i ↔
      (s.runState = .running ∧ s.awaitingCommand = false ∧ s.params.prog.length ≤ 65535) ∧
      ∃ w, fetch s = some w ∧ decode w = .ok i := by
  have toOption_eq (w : InstrWord) : (decode w).toOption = some i ↔ decode w = .ok i := by
    cases decode w <;> simp [Except.toOption]
  unfold executedInstr
  split
  · rename_i h
    simp only [Option.bind_eq_some_iff, toOption_eq]
    exact ⟨fun h' => ⟨h, h'⟩, fun h' => h'.2⟩
  · rename_i h
    exact ⟨fun h' => (nomatch h'), fun h' => absurd h'.1 h⟩

/-- A step that executes no instruction makes no data access. -/
theorem stepAccesses_none {s : State} (h : executedInstr s = none) : stepAccesses s = [] := by
  simp [stepAccesses, h]

/-- A step makes the data accesses of the instruction it executes. -/
theorem stepAccesses_some {s : State} {i : Instr} (h : executedInstr s = some i) :
    stepAccesses s = dataAccesses i s.advancePc := by
  simp [stepAccesses, h]

/-- What the accesses of an instruction can be: reads of the store as it is, or the one write of STO. -/
theorem dataAccesses_cases (i : Instr) (s : State) :
    (∃ addresses : List Word, dataAccesses i s = addresses.map (readCycle s)) ∨
    ∃ a, i = .sto a ∧ dataAccesses i s = [.write a s.acc] := by
  cases i with
  | sto a => exact .inr ⟨a, rfl, rfl⟩
  | ldi p => exact .inl ⟨[p, indirectAddress s p], rfl⟩
  | ldx b => exact .inl ⟨[indexedAddress s b], rfl⟩
  | ldd a | addDirect a | subDirect a | cmpDirect a | xorDirect a | orDirect a => exact .inl ⟨[a], rfl⟩
  | unknown | out | inp | ldm _ | ldr _ | mov | subImmediate _ | addImmediate _ | incIx | incAcc | decIx | decAcc
  | lsl _ | lsr _ | xorImmediate _ | orImmediate _ | cmpImmediate _ | jpeDirect _ | jpeImmediate _ | jpnDirect _
  | jpnImmediate _ | endRun => exact .inl ⟨[], rfl⟩

end Sys2Proof.Machine
end

