-- ==== Sys2Proof/Laws/PerInstr.lean ====
section
/-! SUPPORT. Facts about every instruction as syntax, one lemma per constructor of Instr. The family Variants: the
abstract variant of an instruction has a legal mode (rule R83) and names that instruction and no other (rule R80). -/

/-- The abstract variant of `i` is legal, and `i` is the instruction it stands for. -/
def Sys2Proof.Laws.Variants.Statement (i : Sys2Proof.Instr) : Prop :=
  i.variant.wellFormed = true ∧ i.variant.instr = some i

theorem Sys2Proof.Laws.Variants.unknown : Sys2Proof.Laws.Variants.Statement .unknown := ⟨rfl, rfl⟩
theorem Sys2Proof.Laws.Variants.out : Sys2Proof.Laws.Variants.Statement .out := ⟨rfl, rfl⟩
theorem Sys2Proof.Laws.Variants.inp : Sys2Proof.Laws.Variants.Statement .inp := ⟨rfl, rfl⟩
theorem Sys2Proof.Laws.Variants.ldd (v : Sys2Proof.Word) : Sys2Proof.Laws.Variants.Statement (.ldd v) := ⟨rfl, rfl⟩
theorem Sys2Proof.Laws.Variants.ldm (v : Sys2Proof.Word) : Sys2Proof.Laws.Variants.Statement (.ldm v) := ⟨rfl, rfl⟩
theorem Sys2Proof.Laws.Variants.ldi (v : Sys2Proof.Word) : Sys2Proof.Laws.Variants.Statement (.ldi v) := ⟨rfl, rfl⟩
theorem Sys2Proof.Laws.Variants.ldx (v : Sys2Proof.Word) : Sys2Proof.Laws.Variants.Statement (.ldx v) := ⟨rfl, rfl⟩
theorem Sys2Proof.Laws.Variants.ldr (v : Sys2Proof.Word) : Sys2Proof.Laws.Variants.Statement (.ldr v) := ⟨rfl, rfl⟩
theorem Sys2Proof.Laws.Variants.mov : Sys2Proof.Laws.Variants.Statement .mov := ⟨rfl, rfl⟩
theorem Sys2Proof.Laws.Variants.subDirect (v : Sys2Proof.Word) : Sys2Proof.Laws.Variants.Statement (.subDirect v) := ⟨rfl, rfl⟩
theorem Sys2Proof.Laws.Variants.subImmediate (v : Sys2Proof.Word) : Sys2Proof.Laws.Variants.Statement (.subImmediate v) := ⟨rfl, rfl⟩
theorem Sys2Proof.Laws.Variants.sto (v : Sys2Proof.Word) : Sys2Proof.Laws.Variants.Statement (.sto v) := ⟨rfl, rfl⟩
theorem Sys2Proof.Laws.Variants.addDirect (v : Sys2Proof.Word) : Sys2Proof.Laws.Variants.Statement (.addDirect v) := ⟨rfl, rfl⟩
theorem Sys2Proof.Laws.Variants.addImmediate (v : Sys2Proof.Word) : Sys2Proof.Laws.Variants.Statement (.addImmediate v) := ⟨rfl, rfl⟩
theorem Sys2Proof.Laws.Variants.incIx : Sys2Proof.Laws.Variants.Statement .incIx := ⟨rfl, rfl⟩
theorem Sys2Proof.Laws.Variants.incAcc : Sys2Proof.Laws.Variants.Statement .incAcc := ⟨rfl, rfl⟩
theorem Sys2Proof.Laws.Variants.decIx : Sys2Proof.Laws.Variants.Statement .decIx := ⟨rfl, rfl⟩
theorem Sys2Proof.Laws.Variants.decAcc : Sys2Proof.Laws.Variants.Statement .decAcc := ⟨rfl, rfl⟩
theorem Sys2Proof.Laws.Variants.lsl (v : Sys2Proof.Word) : Sys2Proof.Laws.Variants.Statement (.lsl v) := ⟨rfl, rfl⟩
theorem Sys2Proof.Laws.Variants.lsr (v : Sys2Proof.Word) : Sys2Proof.Laws.Variants.Statement (.lsr v) := ⟨rfl, rfl⟩
theorem Sys2Proof.Laws.Variants.xorDirect (v : Sys2Proof.Word) : Sys2Proof.Laws.Variants.Statement (.xorDirect v) := ⟨rfl, rfl⟩
theorem Sys2Proof.Laws.Variants.xorImmediate (v : Sys2Proof.Word) : Sys2Proof.Laws.Variants.Statement (.xorImmediate v) := ⟨rfl, rfl⟩
theorem Sys2Proof.Laws.Variants.orDirect (v : Sys2Proof.Word) : Sys2Proof.Laws.Variants.Statement (.orDirect v) := ⟨rfl, rfl⟩
theorem Sys2Proof.Laws.Variants.orImmediate (v : Sys2Proof.Word) : Sys2Proof.Laws.Variants.Statement (.orImmediate v) := ⟨rfl, rfl⟩
theorem Sys2Proof.Laws.Variants.cmpDirect (v : Sys2Proof.Word) : Sys2Proof.Laws.Variants.Statement (.cmpDirect v) := ⟨rfl, rfl⟩
theorem Sys2Proof.Laws.Variants.cmpImmediate (v : Sys2Proof.Word) : Sys2Proof.Laws.Variants.Statement (.cmpImmediate v) := ⟨rfl, rfl⟩
theorem Sys2Proof.Laws.Variants.jpeDirect (v : Sys2Proof.Word) : Sys2Proof.Laws.Variants.Statement (.jpeDirect v) := ⟨rfl, rfl⟩
theorem Sys2Proof.Laws.Variants.jpeImmediate (v : Sys2Proof.Word) : Sys2Proof.Laws.Variants.Statement (.jpeImmediate v) := ⟨rfl, rfl⟩
theorem Sys2Proof.Laws.Variants.jpnDirect (v : Sys2Proof.Word) : Sys2Proof.Laws.Variants.Statement (.jpnDirect v) := ⟨rfl, rfl⟩
theorem Sys2Proof.Laws.Variants.jpnImmediate (v : Sys2Proof.Word) : Sys2Proof.Laws.Variants.Statement (.jpnImmediate v) := ⟨rfl, rfl⟩
theorem Sys2Proof.Laws.Variants.endRun : Sys2Proof.Laws.Variants.Statement .endRun := ⟨rfl, rfl⟩
end

