-- ==== Sys2Proof/Tests/Slice0.lean ====
section
/-! SUPPORT. Tests. Every expected value is the spec's own: the encodings of rule R88, the vectors and scenarios of
95_test_vectors.md, the examples of the instruction rules. Then, for every obligation with hypotheses, a state that meets
them together, one for each clause. -/

namespace Sys2Proof.Tests

open Sys2Proof Sys2Proof.Machine

/-! ## Helpers -/

/-- The word decodes to the instruction. -/
def decodesTo (w : InstrWord) (i : Instr) : Bool :=
  match decode w with
  | .ok j => decide (j = i)
  | .error _ => false

/-- The word is rejected, for the reason. -/
def rejectedFor (w : InstrWord) (e : DecodeError) : Bool :=
  match decode w with
  | .ok _ => false
  | .error d => decide (d = e)

/-- The result is a next state with the property. -/
def goesOn (r : Result) (p : State → Bool) : Bool :=
  match r with
  | .next t => p t
  | .fault _ => false
  | .refused _ => false

/-- The result is the fault. -/
def stopsWith (r : Result) (f : Fault) : Bool :=
  match r with
  | .next _ => false
  | .fault g => decide (g = f)
  | .refused _ => false

/-- The result is the refusal. -/
def refusedWith (r : Result) (q : Refusal) : Bool :=
  match r with
  | .next _ => false
  | .fault _ => false
  | .refused p => decide (p = q)

/-- The four flags, in the order Z, N, V, C. -/
def flagsOf (z n v c : Bool) : Flags := { z := z, n := n, v := v, c := c }

/-- A running machine with the given ACC, IX and flags, the latch 1, and cells 3, 4, 7, 10 and 12 filled. -/
def withRegs (acc ix : Int) (f : Flags) : State :=
  { State.reset with
    acc := BitVec.ofInt 16 acc
    ix := BitVec.ofInt 16 ix
    flags := f
    continueLatch := true
    store := [(3, 7), (4, 0xFFFF), (7, 0xFFFE), (10, 5), (12, 9), (65535, 6)] }

/-- A running machine with the given program, the latch 1. -/
def withProgram (words : List InstrWord) : State :=
  { State.reset with
    params := { Params.unsupplied with prog := words }
    continueLatch := true }

/-- The translation with the given NUM_VARS and MIN_ADDR. -/
def physOf (numVars : Nat) (minAddr : Option Int) (a : Nat) : Nat :=
  phys { Params.unsupplied with numVars := BitVec.ofNat 16 numVars, minAddr := minAddr } (BitVec.ofNat 16 a)

/-- The line decodes, from the table, to the instruction. -/
def lineIs (t : SymbolTable) (line : String) (i : Instr) : Bool :=
  match decodeLine t line.toList with
  | .ok (j, _) => decide (j = i)
  | .error _ => false

/-- The line is fatal, with the kind. -/
def lineFails (t : SymbolTable) (line : String) (k : DiagKind) : Bool :=
  match decodeLine t line.toList with
  | .ok _ => false
  | .error e => decide (e = k)

/-- The table after a line. -/
def tableAfter (line : String) : SymbolTable :=
  match decodeLine SymbolTable.empty line.toList with
  | .ok (_, t) => t
  | .error _ => SymbolTable.empty

/-! ## Well-formedness (rules R83, R166): ill-formed terms are refused -/

theorem test_illformed_subtract_indirect : (Variant.subtract 5 .indirect).wellFormed = false := by decide
theorem test_illformed_subtract_indexed : (Variant.subtract 5 .indexed).wellFormed = false := by decide
theorem test_illformed_add_indirect : (Variant.add 5 .indirect).wellFormed = false := by decide
theorem test_illformed_xor_indexed : (Variant.xor 5 .indexed).wellFormed = false := by decide
theorem test_illformed_or_indirect : (Variant.or 5 .indirect).wellFormed = false := by decide
theorem test_illformed_compare_indexed : (Variant.compare 5 .indexed).wellFormed = false := by decide
theorem test_illformed_jumpIfZero_indirect : (Variant.jumpIfZero 5 .indirect).wellFormed = false := by decide
theorem test_illformed_jumpIfNotZero_indexed : (Variant.jumpIfNotZero 5 .indexed).wellFormed = false := by decide
theorem test_wellformed_load_indexed : (Variant.load 5 .indexed).wellFormed = true := by decide
theorem test_illformed_lsl_16 : (Instr.lsl 16).wellFormed .refuse = false := by decide
theorem test_illformed_lsr_65535 : (Instr.lsr 65535).wellFormed .refuse = false := by decide
theorem test_wellformed_lsl_16_zero : (Instr.lsl 16).wellFormed .zero && (Instr.lsl 16).wellFormed .mod16 := by decide
theorem test_wellformed_lsr_15 : (Instr.lsr 15).wellFormed .refuse = true := by decide

/-! ## Decoding: every row's word, field by field (OP, RSV, M, OPR), from rule R88 -/

theorem test_decode_io_and_system :
    decodesTo 0b00000000_000000_00_0000000000000000 .unknown &&
    decodesTo 0b00000001_000000_00_0000000000000000 .out &&
    decodesTo 0b00000001_000000_01_0000000000000000 .inp &&
    decodesTo 0b00010001_000000_00_0000000000000000 .endRun := by decide

theorem test_decode_load_and_store :
    decodesTo 0b00000010_000000_00_0000000000001010 (.ldd 10) &&
    decodesTo 0b00000010_000000_01_1000000000000000 (.ldm 32768) &&
    decodesTo 0b00000010_000000_10_0000000000000011 (.ldi 3) &&
    decodesTo 0b00000010_000000_11_0000000000010000 (.ldx 16) &&
    decodesTo 0b00000011_000000_00_1111111111111111 (.ldr 65535) &&
    decodesTo 0b00000100_000000_00_0000000000000000 .mov &&
    decodesTo 0b00000110_000000_00_0000000011001001 (.sto 201) := by decide

theorem test_decode_arithmetic :
    decodesTo 0b00000101_000000_00_0000000000001010 (.subDirect 10) &&
    decodesTo 0b00000101_000000_01_0000000000000101 (.subImmediate 5) &&
    decodesTo 0b00000111_000000_00_0000000000001010 (.addDirect 10) &&
    decodesTo 0b00000111_000000_01_0000000000000001 (.addImmediate 1) &&
    decodesTo 0b00001000_000000_00_0000000000000000 .incIx &&
    decodesTo 0b00001000_000000_01_0000000000000000 .incAcc &&
    decodesTo 0b00001001_000000_00_0000000000000000 .decIx &&
    decodesTo 0b00001001_000000_01_0000000000000000 .decAcc := by decide

theorem test_decode_compare :
    decodesTo 0b00001110_000000_00_0000000000001010 (.cmpDirect 10) &&
    decodesTo 0b00001110_000000_01_0000000000000011 (.cmpImmediate 3) := by decide

theorem test_decode_logical_and_shift :
    decodesTo 0b00001010_000000_00_0000000000001111 (.lsl 15) &&
    decodesTo 0b00001011_000000_00_0000000000000100 (.lsr 4) &&
    decodesTo 0b00001100_000000_00_0000000000001010 (.xorDirect 10) &&
    decodesTo 0b00001100_000000_01_1111111111111111 (.xorImmediate 65535) &&
    decodesTo 0b00001101_000000_00_0000000000001010 (.orDirect 10) &&
    decodesTo 0b00001101_000000_01_1000000000000000 (.orImmediate 32768) := by decide

theorem test_decode_jumps :
    decodesTo 0b00001111_000000_00_0000000000000111 (.jpeDirect 7) &&
    decodesTo 0b00001111_000000_01_1111111111111111 (.jpeImmediate 65535) &&
    decodesTo 0b00010000_000000_00_0000000000000001 (.jpnDirect 1) &&
    decodesTo 0b00010000_000000_01_0000000000000000 (.jpnImmediate 0) := by decide

/-- The reserved words of 95_test_vectors.md section 2.7. -/
theorem test_decode_reserved :
    rejectedFor 0x00000001 .strayOperand && rejectedFor 0x07020005 .illegalMode && rejectedFor 0x0E030005 .illegalMode &&
    rejectedFor 0x06010005 .illegalMode && rejectedFor 0x08020000 .illegalMode && rejectedFor 0x08010001 .strayOperand &&
    rejectedFor 0x02040000 .reservedBits && rejectedFor 0x12000000 .unassignedOpcode &&
    rejectedFor 0xFFFFFFFF .reservedBits := by decide

/-- Four bytes, most significant first (rule R92), and too few. -/
theorem test_decode_bytes :
    (decodeBytes [0x02, 0x03, 0x00, 0x10, 0xAA]).toOption = some (.ldx 16, [0xAA]) ∧
    (decodeBytes [0x02, 0x03, 0x00]).toOption = none := by decide

theorem test_decodeTableWord : decodeTableWord 32 0x02030010 = some (.ldx 16) ∧ decodeTableWord 32 0x12000000 = none := by
  decide

/-! ## One instruction each: 95_test_vectors.md sections 2.1 to 2.5 -/

/-- L5: a cell never written loads 0; V and C kept. -/
theorem test_ldd_unwritten : goesOn (exec (.ldd 50) (withRegs 9 0 (flagsOf false true true true))) (fun t =>
    decide (t.acc = 0 ∧ t.flags = flagsOf true false true true)) := by decide
theorem test_ldm_negative : goesOn (exec (.ldm 0x8000) (withRegs 1 0 Flags.zero)) (fun t =>
    decide (t.acc.toInt = -32768 ∧ t.flags = flagsOf false true false false)) := by decide
/-- L6: flags from the value, not the pointer. -/
theorem test_ldi : goesOn (exec (.ldi 3) (withRegs 0 0 Flags.zero)) (fun t =>
    decide (t.acc.toInt = -2 ∧ t.flags = flagsOf false true false false)) := by decide
/-- L7: the pointer is read unsigned. -/
theorem test_ldi_negative_pointer : goesOn (exec (.ldi 4) (withRegs 0 0 Flags.zero)) (fun t =>
    decide (t.acc = 6)) := by decide
/-- L9 and L10: a positive and a negative index. -/
theorem test_ldx : goesOn (exec (.ldx 10) (withRegs 0 2 Flags.zero)) (fun t => decide (t.acc = 9 ∧ t.ix = 2)) &&
    goesOn (exec (.ldx 10) (withRegs 0 (-3) Flags.zero)) (fun t => decide (t.acc.toInt = -2)) := by decide
/-- L11: the sum wraps below 0. -/
theorem test_ldx_wraps : goesOn (exec (.ldx 0) (withRegs 0 (-1) Flags.zero)) (fun t => decide (t.acc = 6)) := by decide
theorem test_ldr : goesOn (exec (.ldr 0xFFFF) (withRegs 5 2 (flagsOf true false true false))) (fun t =>
    decide (t.ix.toInt = -1 ∧ t.acc = 5 ∧ t.flags = flagsOf true false true false)) := by decide
theorem test_mov : goesOn (exec .mov (withRegs (-7) 2 (flagsOf true false false false))) (fun t =>
    decide (t.ix.toInt = -7 ∧ t.acc.toInt = -7 ∧ t.flags.z = true)) := by decide
/-- L16. -/
theorem test_sto : goesOn (exec (.sto 10) (withRegs 8 0 Flags.zero)) (fun t =>
    decide (t.store.read 10 = 8 ∧ t.store.read 12 = 9)) := by decide
/-- L17: the upper region. -/
theorem test_sto_upper :
    goesOn (exec (.sto 201) { withRegs (-1) 0 Flags.zero with
      params := { Params.unsupplied with numVars := 2, minAddr := some 200 } })
      (fun t => decide ((t.store.read 3).toInt = -1)) := by decide
theorem test_addDirect : goesOn (exec (.addDirect 3) (withRegs (-7) 0 (flagsOf false false true true))) (fun t =>
    decide (t.acc = 0 ∧ t.flags = flagsOf true false false false)) := by decide
/-- Scenario C. -/
theorem test_addImmediate_overflow : goesOn (exec (.addImmediate 1) (withRegs 32767 0 Flags.zero)) (fun t =>
    decide (t.acc.toInt = -32768 ∧ t.flags = flagsOf false true true true)) := by decide
/-- The one case with Z and V together; and an unsigned carry that C does not show. -/
theorem test_addImmediate_corners :
    goesOn (exec (.addImmediate 0x8000) (withRegs (-32768) 0 Flags.zero)) (fun t =>
      decide (t.acc = 0 ∧ t.flags = flagsOf true false true true)) &&
    goesOn (exec (.addImmediate 0xFFFF) (withRegs (-1) 0 Flags.zero)) (fun t =>
      decide (t.acc.toInt = -2 ∧ t.flags = flagsOf false true false false)) := by decide
/-- The order is ACC minus operand. -/
theorem test_subDirect : goesOn (exec (.subDirect 12) (withRegs 4 0 Flags.zero)) (fun t =>
    decide (t.acc.toInt = -5 ∧ t.flags = flagsOf false true false false)) := by decide
theorem test_subImmediate_overflow : goesOn (exec (.subImmediate 0x8000) (withRegs 0 0 Flags.zero)) (fun t =>
    decide (t.acc.toInt = -32768 ∧ t.flags = flagsOf false true true true)) := by decide
/-- I2 and I3. -/
theorem test_incAcc : goesOn (exec .incAcc (withRegs 32767 0 Flags.zero)) (fun t =>
      decide (t.acc.toInt = -32768 ∧ t.flags = flagsOf false true true true)) &&
    goesOn (exec .incAcc (withRegs (-1) 0 Flags.zero)) (fun t =>
      decide (t.acc = 0 ∧ t.flags = flagsOf true false false false)) := by decide
/-- I6. -/
theorem test_decAcc : goesOn (exec .decAcc (withRegs (-32768) 0 Flags.zero)) (fun t =>
    decide (t.acc.toInt = 32767 ∧ t.flags = flagsOf false false true true)) := by decide
/-- I8. -/
theorem test_incIx : goesOn (exec .incIx (withRegs 1 32767 (flagsOf true false true false))) (fun t =>
    decide (t.ix.toInt = -32768 ∧ t.acc = 1 ∧ t.flags = flagsOf true false true false)) := by decide
/-- I9. -/
theorem test_decIx : goesOn (exec .decIx (withRegs 1 0 Flags.zero)) (fun t =>
    decide (t.ix.toInt = -1 ∧ t.flags = Flags.zero)) := by decide
theorem test_cmpDirect : goesOn (exec (.cmpDirect 10) (withRegs 5 0 Flags.zero)) (fun t =>
    decide (t.acc = 5 ∧ t.flags = flagsOf true false false false)) := by decide
theorem test_cmpImmediate_overflow : goesOn (exec (.cmpImmediate 1) (withRegs (-32768) 0 Flags.zero)) (fun t =>
    decide (t.acc.toInt = -32768 ∧ t.flags = flagsOf false false true true)) := by decide
theorem test_xorImmediate : goesOn (exec (.xorImmediate 0xFFFF) (withRegs 5 0 (flagsOf true false true false))) (fun t =>
    decide (t.acc.toInt = -6 ∧ t.flags = flagsOf false true true false)) := by decide
theorem test_xorDirect : goesOn (exec (.xorDirect 10) (withRegs 6 0 Flags.zero)) (fun t =>
    decide (t.acc = 3)) := by decide
theorem test_orImmediate : goesOn (exec (.orImmediate 0x8000) (withRegs 0 0 (flagsOf true false true true))) (fun t =>
    decide (t.acc.toInt = -32768 ∧ t.flags = flagsOf false true true true)) := by decide
theorem test_orDirect : goesOn (exec (.orDirect 10) (withRegs 0xF0 0 Flags.zero)) (fun t =>
    decide (t.acc = 0xF5)) := by decide
/-- `-32768 LSL 1` leaves Z as it was; `3 LSL 15` copies bit 15, which is 0. -/
theorem test_lsl : goesOn (exec (.lsl 1) (withRegs (-32768) 0 (flagsOf false true true false))) (fun t =>
      decide (t.acc = 0 ∧ t.flags = flagsOf false true true true)) &&
    goesOn (exec (.lsl 15) (withRegs 3 0 (flagsOf true false false true))) (fun t =>
      decide (t.acc.toInt = -32768 ∧ t.flags = flagsOf true false false false)) := by decide
/-- Count 16: refused by default, 0 under `zero`, unchanged under `mod16`. -/
theorem test_lsl_16 : refusedWith (exec (.lsl 16) (withRegs (-1) 0 Flags.zero)) (.shiftOverwidth 16) &&
    goesOn (exec (.lsl 16) { withRegs (-1) 0 Flags.zero with
      params := { Params.unsupplied with shiftOverwidth := .zero } })
      (fun t => decide (t.acc = 0 ∧ t.flags.c = true)) &&
    goesOn (exec (.lsl 16) { withRegs (-1) 0 Flags.zero with
      params := { Params.unsupplied with shiftOverwidth := .mod16 } })
      (fun t => decide (t.acc.toInt = -1 ∧ t.flags.c = true)) := by decide
theorem test_lsr : goesOn (exec (.lsr 4) (withRegs (-1) 0 (flagsOf false true false false))) (fun t =>
      decide (t.acc = 4095 ∧ t.flags = flagsOf false true false true)) &&
    goesOn (exec (.lsr 15) (withRegs (-32768) 0 (flagsOf false true false true))) (fun t =>
      decide (t.acc = 1 ∧ t.flags.c = false)) := by decide
/-- J1, J2, J9: the target is the field, whatever the cell of that number holds. -/
theorem test_jpeDirect : goesOn (exec (.jpeDirect 7) { withRegs 0 0 (flagsOf true false false false) with pc := 4 })
      (fun t => decide (t.pc = 7)) &&
    goesOn (exec (.jpeDirect 7) { withRegs 0 0 Flags.zero with pc := 4 }) (fun t => decide (t.pc = 4)) := by decide
theorem test_jpeImmediate : goesOn (exec (.jpeImmediate 0xFFFF) (withRegs 0 0 (flagsOf true false false false)))
    (fun t => decide (t.pc = 65535)) := by decide
/-- J4, J5. -/
theorem test_jpnDirect : goesOn (exec (.jpnDirect 0) { withRegs 0 0 Flags.zero with pc := 4 })
      (fun t => decide (t.pc = 0)) &&
    goesOn (exec (.jpnDirect 0) { withRegs 0 0 (flagsOf true false false false) with pc := 4 })
      (fun t => decide (t.pc = 4)) := by decide
theorem test_jpnImmediate : goesOn (exec (.jpnImmediate 3) { withRegs 0 0 Flags.zero with pc := 4 })
    (fun t => decide (t.pc = 3)) := by decide
/-- S1 and S3. -/
theorem test_inp : goesOn (exec .inp { withRegs 0 0 (flagsOf true true true false) with
      params := { Params.unsupplied with input := [0x41, 0xFF] }, inputPos := 1 }) (fun t =>
    decide (t.acc.toInt = 255 ∧ t.flags = flagsOf false false true false ∧ t.inputPos = 2)) := by decide
/-- S4: blocked, and the step is no step. -/
theorem test_inp_blocks : stopsWith (step (withProgram [0x01010000])) .blockedOnInput := by decide
/-- S6. -/
theorem test_out : goesOn (exec .out { withRegs 0x0141 0 Flags.zero with output := [0x20] }) (fun t =>
    decide (t.output = [0x20, 0x41] ∧ t.acc = 0x0141)) := by decide
/-- S8. -/
theorem test_end : goesOn (step { withProgram [0, 0, 0, 0x11000000] with pc := 3 }) (fun t =>
    decide (t.done = true ∧ t.runState = .halted ∧ t.pc = 4)) := by decide
/-- S9. -/
theorem test_unknown : goesOn (step { withProgram [0, 0, 0] with pc := 2 }) (fun t =>
    decide (t.diags = [{ kind := .unknownInstruction, info := 2 }] ∧ t.pc = 3 ∧ t.runState = .running)) := by decide

/-! ## The machine -/

/-- The translation table of 95_test_vectors.md section 2.6. -/
theorem test_phys :
    physOf 0 (some 10) 10 = 10 ∧ physOf 2 (some 10) 1 = 1 ∧ physOf 2 (some 200) 1 = 1 ∧ physOf 2 (some 200) 2 = 2 ∧
    physOf 2 (some 200) 199 = 199 ∧ physOf 2 (some 200) 200 = 2 ∧ physOf 2 (some 200) 65535 = 65337 ∧
    physOf 0 (some 200) 200 = 0 ∧ physOf 3 none 250 = 250 ∧ physOf 3 (some 199) 250 = 250 ∧
    physOf 3 (some (-5)) 65531 = 65531 ∧ physOf 250 (some 200) 210 = 210 ∧ physOf 250 (some 200) 249 = 249 ∧
    physOf 250 (some 200) 250 = 300 ∧ physOf 1 (some 300) 300 = 1 ∧ physOf 1 (some 300) 299 = 299 := by decide

/-- A write of 0 removes the cell, so that equal stores are equal data. -/
theorem test_store_canonical : Memory.write [(3, 7), (5, 1)] 3 0 = [(5, 1)] ∧
    Memory.write [(3, 7)] 1 2 = [(1, 2), (3, 7)] ∧ Memory.write [(3, 7)] 9 0 = [(3, 7)] := by decide

/-- Scenario E and J7: past the end the run is aborted with PC recorded. -/
theorem test_fetchPastEnd : goesOn (step { withProgram [0x02010005] with pc := 9 }) (fun t =>
    decide (t.runState = .aborted ∧ t.diags = [{ kind := .fetchPastEnd, info := 9 }] ∧ t.pc = 9)) := by decide

/-- Quit after an instruction stops the run; after END it leaves the run Halted. -/
theorem test_quit :
    goesOn (step { withProgram [0x02010005] with continueLatch := false, ctrl := [.unrecognised, .quit] }) (fun t =>
      decide (t.runState = .stopped ∧ t.acc = 5)) &&
    goesOn (step { withProgram [0x11000000] with continueLatch := false, ctrl := [.quit] }) (fun t =>
      decide (t.runState = .halted)) := by decide

/-- The lines of the control protocol (rule R203). -/
theorem test_command_lines : Command.ofLine [] = .step ∧ Command.ofLine ['q'] = .quit ∧ Command.ofLine ['Q'] = .quit ∧
    Command.ofLine ['c'] = .cont ∧ Command.ofLine ['C'] = .cont ∧ Command.ofLine ['x'] = .unrecognised := by decide

/-- A word put where the next step fetches runs as the first instruction after reset; an IN finds a byte. -/
theorem test_withFetchWord : goesOn (step (State.reset.withFetchWord 32 0x02010005)) (fun t => decide (t.acc = 5)) &&
    goesOn (step (State.reset.withFetchWord 32 0x01010000)) (fun t => decide (t.inputPos = 1)) := by decide

/-- LDI presents the pointer's address, then the cell's; a jump presents none. -/
theorem test_dataAccesses : dataAccesses (.ldi 3) (withRegs 0 0 Flags.zero) = [.read 3 7, .read 7 0xFFFE] ∧
    dataAccesses (.jpeDirect 7) (withRegs 0 0 Flags.zero) = [] := by decide

/-- A step's data ports: LDI's two reads in order, STO's write; nothing from a driver left waiting. -/
theorem test_step_data_ports :
    (let s := { withRegs 0 0 Flags.zero with params := { Params.unsupplied with prog := [0x02020003] } }
     s.inputPorts.dmemRdata = [7, 0xFFFE] ∧ s.inputPorts.imemLen = 1 ∧
     (outputPorts s s).dmem = [{ address := 3, wdata := 0, we := false }, { address := 7, wdata := 0, we := false }]) ∧
    (let s := { withRegs 5 0 Flags.zero with params := { Params.unsupplied with prog := [0x0600000A] } }
     s.inputPorts.dmemRdata = [] ∧ (outputPorts s s).dmem = [{ address := 10, wdata := 5, we := true }] ∧
     stepAccesses { s with awaitingCommand := true } = []) := by decide

/-- The command port: the next recognised command, and none with the latch 1. -/
theorem test_presentedCommand :
    presentedCommand { withProgram [] with continueLatch := false, ctrl := [.unrecognised, .quit] } = some .quit ∧
    presentedCommand { withProgram [] with ctrl := [.step] } = none := by decide

/-- What the host receives after a step has the memory in it (rule R208). -/
theorem test_stepReport : goesOn (exec (.sto 10) (withRegs 8 0 Flags.zero)) (fun t =>
    decide ((stepReport (withRegs 8 0 Flags.zero) t).memory.read 10 = 8)) := by decide

/-- The packed flag register is `C ++ V ++ N ++ Z` (rule R25). -/
theorem test_packed : (flagsOf true false false false).packed = 1 ∧ (flagsOf false true false false).packed = 2 ∧
    (flagsOf false false true false).packed = 4 ∧ (flagsOf false false false true).packed = 8 := by decide

/-! ## The text decoder and the assembler: 95_test_vectors.md section 2.8 -/

/-- A table in which `loop` is the label 1. -/
def loopTable : SymbolTable := SymbolTable.empty.registerLabel "loop".toList 1

theorem test_text_special_lines : lineIs .empty "END" .endRun && lineIs .empty "IN" .inp && lineIs .empty "OUT" .out &&
    lineIs .empty "LDD MAIN" .inp && lineIs .empty "STO LAYOUT" .out := by decide
theorem test_text_literals : lineIs .empty "LDM #5" (.ldm 5) && lineIs .empty "LDM #B101" (.ldm 5) &&
    lineIs .empty "LDM #&FF" (.ldm 255) && lineIs .empty "SUB #&FFFF" (.subImmediate 65535) &&
    lineIs .empty "LDR #3" (.ldr 3) := by decide
theorem test_text_loads : lineIs .empty "LDD 10" (.ldd 10) && lineIs .empty "LDD x" (.ldd 0) &&
    lineIs .empty "LDI x" (.ldi 0) && lineIs .empty "LDX 10" (.ldx 10) && lineIs .empty "STO x" (.sto 0) := by decide
theorem test_text_alu : lineIs .empty "ADD #1" (.addImmediate 1) && lineIs .empty "ADD 10" (.addDirect 10) &&
    lineIs .empty "ADD x" (.addDirect 0) && lineIs .empty "AND #5" (.addImmediate 5) &&
    lineIs .empty "CMP #3" (.cmpImmediate 3) && lineIs .empty "XOR #&FFFF" (.xorImmediate 65535) &&
    lineIs .empty "OR #1" (.orImmediate 1) := by decide
theorem test_text_shifts_and_counts : lineIs .empty "LSL #2" (.lsl 2) && lineIs .empty "LSR #1" (.lsr 1) &&
    lineIs .empty "INC ACC" .incAcc && lineIs .empty "INC IX" .incIx && lineIs .empty "DEC ACC" .decAcc &&
    lineIs .empty "DEC IX" .decIx && lineIs .empty "MOV IX" .mov := by decide
theorem test_text_jumps : lineIs loopTable "JPN loop" (.jpnDirect 1) && lineIs .empty "JPE 7" (.jpeDirect 7) &&
    lineIs .empty "JMP 3" .unknown && lineIs .empty "FOO 1" .unknown := by decide
/-- `ACC` as a jump's operand resolves (log entry 23). -/
theorem test_text_jump_acc : lineIs .empty "JPE ACC" (.jpeDirect 0) && lineIs .empty "JPN IX" (.jpnDirect 1) := by decide
theorem test_text_fatal : lineFails .empty "JPE later" .unresolvedIdentifier &&
    lineFails .empty "LDM #Z1" .malformedImmediate && lineFails .empty "LDM #65536" .literalOutOfRange &&
    lineFails .empty "LDM" .missingOperand := by decide
/-- What log entries 22 and 33 fix: other cases of letters, no letter at all, and a label `ACC`. -/
theorem test_text_choices : lineIs .empty "Add #1" (.addImmediate 1) && lineIs .empty "STo x" (.subDirect 0) &&
    lineIs .empty "add #1" .unknown && lineIs .empty "5" .unknown && ((tableAfter "5").minLiteral == some 5) &&
    ((SymbolTable.empty.registerLabel nameAcc 7).resolve nameAcc == some 0) := by decide
theorem test_text_tables : (tableAfter "LDD 10").minLiteral = some 10 ∧ (tableAfter "JMP 3").minLiteral = some 3 ∧
    (tableAfter "LDD x").varCount = 1 ∧ (tableAfter "LDD x").resolve "x".toList = some 0 ∧
    (tableAfter "LDD MAIN").varCount = 0 := by decide

/-- Scenario B's source. -/
def scenarioB : List Text :=
  ["LDM #0".toList, "loop:".toList, "ADD #1 ; one".toList, "; note".toList, "  CMP #3".toList, "JPN loop".toList,
   "END".toList]

/-- Scenario B's artifact. -/
def scenarioBCode : Code :=
  match assembleLines scenarioB with
  | .ok c => c
  | .error _ => Code.empty

theorem test_scenarioB_words : scenarioBCode.words = [0x02010000, 0x07010001, 0x0E010003, 0x10000001, 0x11000000] ∧
    scenarioBCode.symbols.minLiteral = none ∧ scenarioBCode.symbols.varCount = 0 := by decide

/-! ## Witnesses: for every obligation with hypotheses, inputs that meet them, clause by clause -/

/-- A running machine that holds the invariant, with cells written, a diagnostic recorded and input partly read. -/
def busy (words : List InstrWord) : State :=
  { withProgram words with
    params := { Params.unsupplied with prog := words, input := [0x41, 0x42], numVars := 2, minAddr := some 200 }
    store := [(0, 4), (3, 7)]
    inputPos := 1
    diags := [{ kind := .unknownInstruction, info := 0 }] }

/-- The invariant of a running machine whose driver is not waiting. -/
theorem busy_inv (words : List InstrWord) : (busy words).Inv :=
  ⟨(by decide : Memory.wf [(0, 4), (3, 7)]), by simp [busy, withProgram, State.reset],
   by simp [busy, withProgram, State.reset], (by decide : 1 ≤ 2),
   by simp [busy, withProgram, State.reset], by simp [busy]⟩

/-- A machine whose driver waits for a command. -/
def waiting (commands : List Command) : State :=
  { busy [0x02010005] with continueLatch := false, ctrl := commands, awaitingCommand := true }

/-- The invariant of a waiting driver's machine. -/
theorem waiting_inv (commands : List Command) : (waiting commands).Inv :=
  ⟨(busy_inv []).store_wf, by simp [waiting, busy, withProgram, State.reset],
   by simp [waiting, busy, withProgram, State.reset], (busy_inv []).input_le,
   by simp [waiting, busy, withProgram, State.reset], by simp [waiting, busy]⟩

/-- A machine about to read a byte that INPUT does not hold. -/
def starved : State := { busy [0x01010000] with inputPos := 2 }

/-- The invariant of a machine about to read a byte that is not there. -/
theorem starved_inv : starved.Inv :=
  ⟨(busy_inv []).store_wf, by simp [starved, busy, withProgram, State.reset],
   by simp [starved, busy, withProgram, State.reset], (by decide : 2 ≤ 2),
   by simp [starved, busy, withProgram, State.reset], by simp [starved, busy]⟩

/-- No instruction is decoded from a word the decoder rejects. -/
theorem reserved_of_error {w : InstrWord} {e : DecodeError} (h : decode w = .error e) : ¬ ∃ i, decode w = .ok i := by
  rintro ⟨i, hi⟩
  rw [h] at hi
  cases hi

theorem witness_EncodeOfDecodeIsIdentity : decode 0x1001FFFF = .ok (.jpnImmediate 65535) := rfl
theorem witness_DecoderAcceptsTableWords : (∃ i, decode 0x02030010 = .ok i) ∧ (¬ ∃ i, decode 0x12000000 = .ok i) :=
  ⟨⟨_, rfl⟩, reserved_of_error rfl⟩
theorem witness_TableRowsAreDisjoint : ∃ r ∈ opcodeTable, r.Matches 0x02030010 := by decide
/-- Each of the six clauses has a word of its own. -/
theorem witness_ReservedWordsAreThoseListed :
    (0x12 ≤ (fieldOP 0x12000000).toNat) ∧ fieldRSV 0x02040000 ≠ 0 ∧
    (2 ≤ (fieldM 0x07020005).toNat ∧ fieldOP 0x07020005 ≠ 0x02) ∧ (fieldM 0x06010005 ≠ 0 ∧ fieldOP 0x06010005 = 0x06) ∧
    (2 ≤ (fieldM 0x08020000).toNat ∧ fieldOP 0x08020000 = 0x08) ∧
    (fieldOPR 0x00000001 ≠ 0 ∧ fieldOP 0x00000001 = 0x00) := by decide
theorem witness_LegalVariantsAreInstructions :
    (Variant.load 5 .indexed).wellFormed = true ∧ (Variant.compare 5 .indirect).wellFormed = false := by decide
theorem witness_StoStoresAcc : (withRegs 5 0 Flags.zero).store.wf := by decide
theorem witness_ShiftsBelowSixteen : (0 : Word).toNat < 16 ∧ (15 : Word).toNat < 16 := by decide
/-- The least and the greatest count the clauses cover, and a state for each setting. -/
theorem witness_ShiftsOverWidth : 16 ≤ (16 : Word).toNat ∧ 16 ≤ (65535 : Word).toNat ∧
    (withRegs 1 0 Flags.zero).params.shiftOverwidth = .refuse ∧
    (∃ s : State, s.params.shiftOverwidth = .zero) ∧ (∃ s : State, s.params.shiftOverwidth = .mod16) :=
  ⟨by decide, by decide, rfl, ⟨{ State.reset with params := { Params.unsupplied with shiftOverwidth := .zero } }, rfl⟩,
   ⟨{ State.reset with params := { Params.unsupplied with shiftOverwidth := .mod16 } }, rfl⟩⟩
theorem witness_JumpsTestZ : (withRegs 0 0 (flagsOf true false false false)).flags.z = true ∧
    (withRegs 0 0 Flags.zero).flags.z = false := by decide
theorem witness_InReadsByte : (busy []).params.input[(busy []).inputPos]? = some 0x42 := by decide
theorem witness_InBlocksWithoutInput :
    let s := starved
    s.runState = .running ∧ s.awaitingCommand = false ∧ s.params.prog.length ≤ 65535 ∧
    s.params.prog[s.pc.toNat]? = some 0x01010000#32 ∧ s.params.input.length ≤ s.inputPos := by decide
/-- Every implication and both sides of every equivalence of the arithmetic facts are met. -/
theorem witness_CheckedArithmetic :
    (arith .add 32767 1).flags.v = true ∧ (arith .add 0xFFFF 0x8000).flags.v = true ∧
    ((arith .add 0x8000 0x8000).flags.z = true ∧ (arith .add 0x8000 0x8000).flags.v = true) ∧
    (arith .sub 0 0x8000).flags.v = true ∧ (arith .sub 0xFFFF 0x8000).flags.v = false ∧
    (arith .sub 0x8000 1).flags.v = true := by decide
theorem witness_CompareTestsEquality :
    (arith .sub 1 3).flags = flagsOf false true false false ∧ (arith .sub 0x8000 1).flags = flagsOf false false true true ∧
    (arith .sub 3 3).flags.z = true := by decide
/-- Zero, negative and positive loads. -/
theorem witness_LoadFamilyFlags :
    goesOn (exec (.ldm 0) (busy [])) (fun t => decide (t.flags.z = true ∧ t.flags.n = false)) &&
    goesOn (exec (.ldm 0xFFFF) (busy [])) (fun t => decide (t.flags.z = false ∧ t.flags.n = true)) &&
    goesOn (exec (.ldm 1) (busy [])) (fun t => decide (t.flags.z = false ∧ t.flags.n = false)) := by decide
/-- An instruction of each class of the flag table answers a state. -/
theorem witness_FlagWritesFollowTable :
    (∃ t, exec (.sto 1) (busy []) = .next t) ∧ (Instr.sto 1).writesZN = false ∧ (Instr.sto 1).writesV = false ∧
    (Instr.sto 1).isShift = false ∧ (∃ t, exec (.orImmediate 1) (busy []) = .next t) ∧
    (Instr.orImmediate 1).writesZN = true ∧ (Instr.orImmediate 1).writesAcc = true ∧
    (∃ t, exec (.cmpImmediate 1) (busy []) = .next t) ∧ (Instr.cmpImmediate 1).writesV = true :=
  ⟨⟨_, rfl⟩, rfl, rfl, rfl, ⟨_, rfl⟩, rfl, rfl, ⟨_, rfl⟩, rfl⟩
/-- A register kept, a register written, and a jump taken. -/
theorem witness_RegisterWritersAreListed :
    (∃ t, exec (.ldr 5) (busy []) = .next t) ∧ (Instr.ldr 5).writesAcc = false ∧
    (∃ t, exec (.ldm 5) (busy []) = .next t) ∧ (Instr.ldm 5).writesIx = false ∧
    (∃ t, exec (.jpnDirect 5) (busy []) = .next t) ∧ (Instr.jpnDirect 5).jumpTarget = some 5 :=
  ⟨⟨_, rfl⟩, rfl, ⟨_, rfl⟩, rfl, ⟨_, rfl⟩, rfl⟩
theorem witness_OnlyStoreTargetsChange :
    (∃ t, exec (.sto 201) (busy []) = .next t) ∧ (Instr.sto 201).storeAddress = some 201 ∧
    phys (busy []).params 201 = 3 ∧ (∃ t, exec (.cmpDirect 201) (busy []) = .next t) ∧
    (Instr.cmpDirect 201).storeAddress = none := ⟨⟨_, rfl⟩, rfl, by decide, ⟨_, rfl⟩, rfl⟩
theorem witness_StreamsAndLatchesFrame :
    (∃ t, exec .endRun (busy []) = .next t) ∧ (∃ t, exec .inp (busy []) = .next t) ∧ Instr.inp ≠ .endRun ∧
    Instr.endRun ≠ .out ∧ Instr.endRun ≠ .unknown ∧ Instr.endRun ≠ .inp :=
  ⟨⟨_, rfl⟩, ⟨_, rfl⟩, by decide, by decide, by decide, by decide⟩
/-- The boundaries between the cases: NUM_VARS 2, MIN_ADDR 200 or 199 or none. -/
theorem witness_TranslationCases :
    physOf 2 (some 200) 1 = 1 ∧ physOf 2 (some 200) 2 = 2 ∧ physOf 2 (some 200) 199 = 199 ∧ physOf 2 (some 200) 200 = 2 ∧
    physOf 2 (some 199) 199 = 199 ∧ physOf 2 none 65535 = 65535 := by decide
theorem witness_VariableCellsAreUnaliased : (1 : Word) < (busy []).params.numVars ∧
    phys (busy []).params 1 = phys (busy []).params 1 := by decide
/-- The lowest and the highest aliased address. -/
theorem witness_UpperRegionAliases :
    (busy []).params.minAddr = some 200 ∧ (busy []).params.numVars.toNat ≤ (2 : Word).toNat ∧
    ((2 : Word).toNat : Int) < 200 ∧ ((200 : Word).toNat : Int) = ((2 : Word).toNat : Int) + 200 - 2 ∧
    ((199 : Word).toNat : Int) < 200 ∧ ((397 : Word).toNat : Int) = ((199 : Word).toNat : Int) + 200 - 2 := by decide
theorem witness_PhysicalIndexBound : physOf 0 none 65535 = 65535 ∧ physOf 250 (some 200) 65535 = 65585 := by decide
theorem witness_CanonicalStoresAreEqual : (busy []).store.wf ∧
    (∀ k, (busy []).store.read k = (busy []).store.read k) := ⟨by decide, fun _ => rfl⟩
theorem witness_StepRunsDecodedInstruction :
    let s := busy [0x02010005]
    s.runState = .running ∧ s.awaitingCommand = false ∧ s.params.prog.length ≤ 65535 ∧
    s.params.prog[s.pc.toNat]? = some 0x02010005#32 ∧ decode 0x02010005 = .ok (.ldm 5) :=
  ⟨rfl, rfl, by decide, rfl, rfl⟩
/-- A program of the greatest length, about to fetch its last instruction. -/
def longest : State :=
  { withProgram (List.replicate 65535 (0x00000000 : InstrWord)) with pc := 65534 }

/-- The bound is met with equality, and a step that executes an instruction other than a jump answers a state. -/
theorem witness_PcIncrementIsExact :
    (longest.params.prog.length ≤ 65535 ∧ fetch longest = some 0x00000000#32 ∧ longest.pc.toNat + 1 = 65535) ∧
    ((busy [0]).params.prog.length ≤ 65535 ∧ fetch (busy [0]) = some 0x00000000#32 ∧
      (busy [0]).awaitingCommand = false ∧ decode 0x00000000 = .ok .unknown ∧ Instr.unknown.jumpTarget = none ∧
      ∃ t, step (busy [0]) = .next t) := by
  refine ⟨⟨?_, ?_, rfl⟩, by decide, rfl, rfl, rfl, rfl, _, rfl⟩
  · simp only [longest, withProgram, List.length_replicate]
    decide
  · simp only [longest, withProgram, fetch, List.getElem?_replicate]
    rfl
theorem witness_FetchPastEndAborts :
    let s : State := { busy [0x02010005] with pc := 1 }
    s.runState = .running ∧ s.awaitingCommand = false ∧ s.params.prog.length ≤ 65535 ∧
    s.params.prog.length ≤ s.pc.toNat := by decide
theorem witness_TerminalStatesTakeNoStep : ∀ r : RunState, ({ busy [0] with runState := r } : State).runState = r :=
  fun _ => rfl
theorem witness_ReservedWordIsRefused :
    let s := busy [0x12000000]
    s.runState = .running ∧ s.awaitingCommand = false ∧ s.params.prog.length ≤ 65535 ∧
    s.params.prog[s.pc.toNat]? = some 0x12000000#32 ∧ ¬ ∃ i, decode 0x12000000 = .ok i :=
  ⟨rfl, rfl, by decide, rfl, reserved_of_error rfl⟩
/-- Each clause: the latch 1; each command, with an unrecognised one before it; Quit after END; nothing left. -/
theorem witness_ControlPointProtocol :
    (∀ c ∈ [Command.unrecognised], c = .unrecognised) ∧ (busy []).continueLatch = true ∧
    (∀ c : Command, (waiting [.unrecognised, c]).ctrl = [.unrecognised] ++ c :: []) ∧
    (waiting []).continueLatch = false ∧ (waiting []).runState ≠ .halted ∧
    (∃ s : State, s.continueLatch = false ∧ s.runState = .halted) ∧
    (waiting [.unrecognised]).ctrl = [.unrecognised] :=
  ⟨by decide, rfl, fun _ => rfl, rfl, by decide, ⟨{ waiting [] with runState := .halted }, rfl, rfl⟩, rfl⟩
theorem witness_WaitingDriverResumes :
    (waiting [.unrecognised]).runState = .running ∧ (waiting [.unrecognised]).awaitingCommand = true ∧
    (waiting [.unrecognised]).continueLatch = false ∧ (∀ c ∈ (waiting [.unrecognised]).ctrl, c = .unrecognised) ∧
    (∃ c ∈ (waiting [.unrecognised, .step]).ctrl, c ≠ .unrecognised) ∧
    ({ waiting [] with continueLatch := true } : State).continueLatch = true := by decide
/-- A command for each step, and a Continue with fewer commands than steps. -/
theorem witness_StepAndContinueAreInvisible :
    ((∀ c ∈ [Command.step, Command.step, Command.step], c = .step ∨ c = .cont) ∧
      3 ≤ [Command.step, Command.step, Command.step].length) ∧
    ((∀ c ∈ [Command.cont], c = .step ∨ c = .cont) ∧ Command.cont ∈ [Command.cont]) := by decide
theorem witness_HistoriesOnlyGrow : ∃ t, step (busy [0]) = .next t := ⟨_, rfl⟩
/-- A step that stores, one that emits, and one that records a diagnostic. -/
theorem witness_PortsAccountForStep : (∃ t, step (busy [0x0600000A]) = .next t) ∧
    (∃ t, step (busy [0x01000000]) = .next t) ∧ (∃ t, step (busy []) = .next t) := ⟨⟨_, rfl⟩, ⟨_, rfl⟩, ⟨_, rfl⟩⟩
theorem witness_StepKeepsInvariant : (busy [0]).Inv ∧ ∃ t, step (busy [0]) = .next t := ⟨busy_inv _, _, rfl⟩
/-- Each way out: a step, a wait for a command, a wait for a byte. -/
theorem witness_FitProgramMakesProgress :
    ((busy [0x02010005]).Inv ∧ ProgramFit (busy [0x02010005]).params ∧ (busy [0x02010005]).runState = .running) ∧
    ((waiting []).Inv ∧ ProgramFit (waiting []).params ∧ stopsWith (step (waiting [])) .blockedOnCommand = true) ∧
    (starved.Inv ∧ ProgramFit starved.params ∧ stopsWith (step starved) .blockedOnInput = true) :=
  ⟨⟨busy_inv _, by decide, rfl⟩, ⟨waiting_inv _, by decide, by decide⟩, ⟨starved_inv, by decide, by decide⟩⟩
/-- A program boot accepts, one with a reserved word and one with an overwide shift that it refuses. -/
theorem witness_BootAcceptsFitPrograms : (∃ s, boot (busy [0x02010005]).params [.cont] = .ok s) ∧
    (busy [0x02010005]).params.resetZero = true ∧
    programProblem (busy [0x12000000]).params = some (.reservedEncoding 0x12000000) ∧
    programProblem (busy [0x0A000010]).params = some (.shiftOverwidth 16) :=
  ⟨⟨_, rfl⟩, rfl, by decide, by decide⟩
theorem witness_VariablesTakeFirstUseAddresses :
    ["sum".toList, "cnt".toList].Nodup ∧
    (∀ x ∈ ["sum".toList, "cnt".toList], x ≠ ['A', 'C', 'C'] ∧ x ≠ ['I', 'X']) ∧
    ["sum".toList, "cnt".toList][1]? = some "cnt".toList ∧
    (tableAfter "LDD x").resolve "x".toList = some 0 := by decide
/-- A record of the assembled source keeps the line's comment; its rendering does not. -/
theorem witness_DebugRecordsReproduceSource : assembleLines scenarioB = .ok scenarioBCode ∧
    ({ line := 2, raw := "ADD #1 ; one".toList } : DebugRecord) ∈ scenarioBCode.records ∧
    scenarioBCode.debugText[1]? = some "ADD #1".toList := ⟨rfl, by decide, by decide⟩
/-- A source with two Unknown lines, and the same with a fatal line after the first. -/
theorem witness_AssemblyReportsEveryUnknown :
    (∃ c, assembleLines ["FOO 1".toList, "END".toList, "BAR".toList] = .ok c ∧
      c.warnings = [{ kind := .unknownInstruction, info := 0 }, { kind := .unknownInstruction, info := 2 }]) ∧
    assembleLines ["FOO 1".toList, "JPE later".toList, "BAR".toList] =
      .error { kind := .unresolvedIdentifier, line := 1, warnings := [{ kind := .unknownInstruction, info := 0 }] } :=
  ⟨⟨_, rfl, by decide⟩, rfl⟩
/-- The diagnostic of the first line is not lost with the fatal second. -/
theorem test_assemblyDiagnostics : assemblyDiagnostics "FOO 1\nLDM #Z1".toList =
    [{ kind := .unknownInstruction, info := 0 }] := by decide
theorem witness_AssembledProgramsBoot :
    assembleLines scenarioB = .ok scenarioBCode ∧ scenarioBCode.instrs.length ≤ 65535 ∧
    (∀ i ∈ scenarioBCode.instrs, ∀ k, i.shiftCount = some k → k.toNat < 16) ∧
    scenarioBCode.instrs[1]? = some (.addImmediate 1) := by
  refine ⟨rfl, by decide, ?_, by decide⟩
  have none_shift : ∀ i ∈ scenarioBCode.instrs, i.shiftCount = none := by decide
  intro i hi k hk
  rw [none_shift i hi] at hk
  cases hk

end Sys2Proof.Tests
end

section
/-! PROOFS. The family of 30_encoding.md: the binary words of the opcode table (rules R88, R89), and the text lines
decoded before any mnemonic (rules R93, R94). -/

namespace Sys2Proof

/-! ## Words -/

/-- The decoder inverts the encoder: the word of each instruction is packed from the fields of its row. -/
theorem decode_encode (i : Instr) : decode (encode i) = .ok i := by
  cases i <;> exact decode_packWord _ _ _

/-- Settles O6: every word named is, by its bits, the encoding of the instruction of its row. -/
theorem specWordsDecode : Obligations.SpecWordsDecode := by
  unfold Obligations.SpecWordsDecode
  refine ⟨decode_encode .unknown, decode_encode .out, decode_encode .inp, decode_encode .mov, decode_encode .incIx,
    decode_encode .incAcc, decode_encode .decIx, decode_encode .decAcc, decode_encode .endRun, fun v => ?operand,
    ?reserved⟩
  case operand =>
    exact ⟨decode_encode (.ldd v), decode_encode (.ldm v), decode_encode (.ldi v), decode_encode (.ldx v),
      decode_encode (.ldr v), decode_encode (.subDirect v), decode_encode (.subImmediate v), decode_encode (.sto v),
      decode_encode (.addDirect v), decode_encode (.addImmediate v), decode_encode (.lsl v), decode_encode (.lsr v),
      decode_encode (.xorDirect v), decode_encode (.xorImmediate v), decode_encode (.orDirect v),
      decode_encode (.orImmediate v), decode_encode (.cmpDirect v), decode_encode (.cmpImmediate v),
      decode_encode (.jpeDirect v), decode_encode (.jpeImmediate v), decode_encode (.jpnDirect v),
      decode_encode (.jpnImmediate v)⟩
  case reserved => exact ⟨rfl, rfl, rfl, rfl⟩

end Sys2Proof

namespace Sys2Proof.Machine

/-! ## Lines -/

variable (t : SymbolTable) (before : Text)

@[simp] theorem endsWith_append_self (suffix : Text) : endsWith (before ++ suffix) suffix = true := by
  simp [endsWith]

/-- `END` ends in neither `IN` nor `OUT`, so the first test of the decoder keeps no line from the other two. -/
theorem ne_end_of_endsWith {line suffix : Text} (hs : suffix = ['I', 'N'] ∨ suffix = ['O', 'U', 'T'])
    (h : endsWith line suffix = true) : line ≠ ['E', 'N', 'D'] := by
  rintro rfl
  obtain rfl | rfl := hs <;> cases h

theorem not_endsWith_in_append_out : ¬ endsWith (before ++ ['O', 'U', 'T']) ['I', 'N'] = true := by
  simp [endsWith, List.isPrefixOf]

theorem decodeLine_end : decodeLine t ['E', 'N', 'D'] = .ok (.endRun, t) := rfl

theorem decodeLine_append_in : decodeLine t (before ++ ['I', 'N']) = .ok (.inp, t) := by
  have hin := endsWith_append_self before ['I', 'N']
  rw [decodeLine, if_neg (ne_end_of_endsWith (.inl rfl) hin), if_pos hin]

theorem decodeLine_append_out : decodeLine t (before ++ ['O', 'U', 'T']) = .ok (.out, t) := by
  have hout := endsWith_append_self before ['O', 'U', 'T']
  rw [decodeLine, if_neg (ne_end_of_endsWith (.inr rfl) hout),
    if_neg (not_endsWith_in_append_out before), if_pos hout]

/-- Settles O54: the first three tests of the decoder, in their order. -/
theorem endAndIoLinesComeFirst : Obligations.EndAndIoLinesComeFirst := by
  unfold Obligations.EndAndIoLinesComeFirst
  intro t before
  exact ⟨decodeLine_end t, decodeLine_append_in t before, decodeLine_append_out t before⟩

end Sys2Proof.Machine
end

section
/-! PROOFS. The family of 40_load_store.md: the load of the index register (rule R134). -/

namespace Sys2Proof.Machine

/-- Rule R134: LDR is the write of IX, so its frame is the frame of `State.setIx`. -/
@[simp] theorem exec_ldr (v : Word) (s : State) : exec (.ldr v) s = .next (s.setIx v) := rfl

theorem State.setIx_eq (s : State) (v : Word) : s.setIx v = { s with ix := v } := rfl

/-- Settles O9: LDR answers the state with IX written, and that write replaces the one field. -/
theorem ldrLoadsIx : Obligations.LdrLoadsIx := by
  unfold Obligations.LdrLoadsIx
  intro s v
  rw [exec_ldr, State.setIx_eq]

end Sys2Proof.Machine
end

section
/-! PROOFS. The family of 41_arithmetic_compare.md: ADD, SUB, INC, DEC and CMP (rules R141, R143 to R152). -/

namespace Sys2Proof.Machine

/-! ## The checked arithmetic of rule R141 as one function of the exact result -/

/-- The four flags rule R141 gives an exact result: Z and N of the wrapped value, V and with it C for one outside the
signed range. -/
def exactFlags (r : Int) : Flags :=
  { z := decide (BitVec.ofInt 16 r = 0), n := decide ((BitVec.ofInt 16 r).toInt < 0)
    v := decide (32767 < r ∨ r < -32768), c := decide (32767 < r ∨ r < -32768) }

/-- The exact result decides everything the checked arithmetic answers; the operation only chooses that result. -/
theorem arith_eq_exact (op : ArithOp) (a b : Word) :
    arith op a b =
      { res := BitVec.ofInt 16 (op.exact a.toInt b.toInt), flags := exactFlags (op.exact a.toInt b.toInt) } := rfl

theorem State.setFlags_eq (s : State) (f : Flags) : s.setFlags f = { s with flags := f } := rfl

theorem State.commitArith_eq (s : State) (r : ArithResult) :
    s.commitArith r = { s with acc := r.res, flags := r.flags } := rfl

/-- What ADD, SUB, INC ACC and DEC ACC commit, as a function of the exact result. -/
theorem State.commitArith_arith (s : State) (op : ArithOp) (a b : Word) :
    s.commitArith (arith op a b) =
      { s with
        acc := BitVec.ofInt 16 (op.exact a.toInt b.toInt)
        flags := exactFlags (op.exact a.toInt b.toInt) } := by
  rw [arith_eq_exact, State.commitArith_eq]

/-- What CMP sets, as a function of the exact result. -/
theorem State.setFlags_arith (s : State) (op : ArithOp) (a b : Word) :
    s.setFlags (arith op a b).flags = { s with flags := exactFlags (op.exact a.toInt b.toInt) } := by
  rw [arith_eq_exact, State.setFlags_eq]

/-! ## The instructions, each over the shared operations -/

variable (s : State) (v : Word)

@[simp] theorem exec_addDirect :
    exec (.addDirect v) s = .next (s.commitArith (arith .add s.acc (memRead s v))) := rfl
@[simp] theorem exec_addImmediate : exec (.addImmediate v) s = .next (s.commitArith (arith .add s.acc v)) := rfl
@[simp] theorem exec_subDirect :
    exec (.subDirect v) s = .next (s.commitArith (arith .sub s.acc (memRead s v))) := rfl
@[simp] theorem exec_subImmediate : exec (.subImmediate v) s = .next (s.commitArith (arith .sub s.acc v)) := rfl
@[simp] theorem exec_cmpDirect :
    exec (.cmpDirect v) s = .next (s.setFlags (arith .sub s.acc (memRead s v)).flags) := rfl
@[simp] theorem exec_cmpImmediate : exec (.cmpImmediate v) s = .next (s.setFlags (arith .sub s.acc v).flags) := rfl
@[simp] theorem exec_incAcc : exec .incAcc s = .next (s.commitArith (arith .add s.acc 1)) := rfl
@[simp] theorem exec_decAcc : exec .decAcc s = .next (s.commitArith (arith .sub s.acc 1)) := rfl
@[simp] theorem exec_incIx : exec .incIx s = .next (s.setIx (BitVec.ofInt 16 (s.ix.toInt + 1))) := rfl
@[simp] theorem exec_decIx : exec .decIx s = .next (s.setIx (BitVec.ofInt 16 (s.ix.toInt - 1))) := rfl

/-! ## The obligations -/

/-- Settles O12: both modes commit the checked sum, and differ only in where the operand comes from. -/
theorem addAddsOperand : Obligations.AddAddsOperand := by
  unfold Obligations.AddAddsOperand
  intro s v
  constructor
  · rw [exec_addDirect, State.commitArith_arith, exact_add, exactFlags]
  · rw [exec_addImmediate, State.commitArith_arith, exact_add, exactFlags]

/-- Settles O13: both modes commit the checked difference, ACC first. -/
theorem subSubtractsOperand : Obligations.SubSubtractsOperand := by
  unfold Obligations.SubSubtractsOperand
  intro s v
  constructor
  · rw [exec_subDirect, State.commitArith_arith, exact_sub, exactFlags]
  · rw [exec_subImmediate, State.commitArith_arith, exact_sub, exactFlags]

/-- Settles O14: both modes keep only the flags of the checked difference. -/
theorem cmpSetsFlagsOnly : Obligations.CmpSetsFlagsOnly := by
  unfold Obligations.CmpSetsFlagsOnly
  intro s v
  constructor
  · rw [exec_cmpDirect, State.setFlags_arith, exact_sub, exactFlags]
  · rw [exec_cmpImmediate, State.setFlags_arith, exact_sub, exactFlags]

/-- Settles O15: the operand of both is the word 1, which reads as the integer 1, as in ADD #1 and SUB #1. -/
theorem incDecAccCountAcc : Obligations.IncDecAccCountAcc := by
  unfold Obligations.IncDecAccCountAcc
  intro s
  have one_toInt : (1 : Word).toInt = 1 := by decide
  refine ⟨?inc, ?dec, ?incIsAdd, ?decIsSub⟩
  case inc => rw [exec_incAcc, State.commitArith_arith, exact_add, one_toInt, exactFlags]
  case dec => rw [exec_decAcc, State.commitArith_arith, exact_sub, one_toInt, exactFlags]
  case incIsAdd => rw [exec_incAcc, exec_addImmediate]
  case decIsSub => rw [exec_decAcc, exec_subImmediate]

/-- Settles O16: both write IX alone, so their frame is the frame of `State.setIx`. -/
theorem incDecIxCountIx : Obligations.IncDecIxCountIx := by
  unfold Obligations.IncDecIxCountIx
  intro s
  constructor
  · rw [exec_incIx, State.setIx_eq]
  · rw [exec_decIx, State.setIx_eq]

end Sys2Proof.Machine
end

section
/-! PROOFS. The family of 42_logical_shift.md: XOR and OR (rules R160 to R163). -/

namespace Sys2Proof.Machine

variable (s : State) (v : Word)

/-- What a load, XOR or OR commits: ACC, and of the flags only Z and N (rules R26, R27). -/
theorem State.loadAcc_eq (t : Word) :
    s.loadAcc t =
      { s with acc := t, flags := { s.flags with z := decide (t = 0), n := decide (t.toInt < 0) } } := rfl

/-! ## The instructions, each over `State.loadAcc` -/

@[simp] theorem exec_xorDirect : exec (.xorDirect v) s = .next (s.loadAcc (s.acc ^^^ memRead s v)) := rfl
@[simp] theorem exec_xorImmediate : exec (.xorImmediate v) s = .next (s.loadAcc (s.acc ^^^ v)) := rfl
@[simp] theorem exec_orDirect : exec (.orDirect v) s = .next (s.loadAcc (s.acc ||| memRead s v)) := rfl
@[simp] theorem exec_orImmediate : exec (.orImmediate v) s = .next (s.loadAcc (s.acc ||| v)) := rfl

/-- Settles O17: each form loads ACC with its bitwise result, so its frame is the frame of `State.loadAcc`. -/
theorem xorOrCombineBits : Obligations.XorOrCombineBits := by
  unfold Obligations.XorOrCombineBits
  intro s v combined
  have loadAcc_eq_combined (t : Word) : s.loadAcc t = combined t := s.loadAcc_eq t
  refine ⟨?xorDirect, ?xorImmediate, ?orDirect, ?orImmediate⟩
  case xorDirect => rw [exec_xorDirect, loadAcc_eq_combined]
  case xorImmediate => rw [exec_xorImmediate, loadAcc_eq_combined]
  case orDirect => rw [exec_orDirect, loadAcc_eq_combined]
  case orImmediate => rw [exec_orImmediate, loadAcc_eq_combined]

end Sys2Proof.Machine
end

section
/-! PROOFS. The family of 43_jump.md: JPE and JPN (rules R170 to R174). -/

namespace Sys2Proof.Machine

variable {s : State} {polarity : Bool}

/-! ## The conditional jump of rule R174, taken and not taken -/

theorem State.setPc_eq (s : State) (v : Word) : s.setPc v = { s with pc := v } := rfl

theorem jumpIf_of_z_eq (h : s.flags.z = polarity) (target : Word) :
    s.jumpIf polarity target = { s with pc := target } := by
  rw [← h, jumpIf_taken, State.setPc_eq]

theorem jumpIf_of_z_ne (h : s.flags.z ≠ polarity) (target : Word) : s.jumpIf polarity target = s := by
  obtain ⟨hz, -⟩ | ⟨-, stays⟩ := jumpIf_cases s polarity target
  · exact absurd hz h
  · exact stays

/-! ## The instructions, each over `State.jumpIf`: the tag plays no part, the mnemonic is the polarity -/

@[simp] theorem exec_jpeDirect (v : Word) (s : State) : exec (.jpeDirect v) s = .next (s.jumpIf true v) := rfl
@[simp] theorem exec_jpeImmediate (v : Word) (s : State) : exec (.jpeImmediate v) s = .next (s.jumpIf true v) := rfl
@[simp] theorem exec_jpnDirect (v : Word) (s : State) : exec (.jpnDirect v) s = .next (s.jumpIf false v) := rfl
@[simp] theorem exec_jpnImmediate (v : Word) (s : State) : exec (.jpnImmediate v) s = .next (s.jumpIf false v) := rfl

/-- Settles O20: Z has exactly one of the two polarities, so one mnemonic jumps and the other leaves the state. -/
theorem jumpsTestZ : Obligations.JumpsTestZ := by
  unfold Obligations.JumpsTestZ
  intro s v
  rw [exec_jpeDirect, exec_jpeImmediate, exec_jpnDirect, exec_jpnImmediate]
  constructor
  · intro hz
    have jpe : s.jumpIf true v = { s with pc := v } := jumpIf_of_z_eq hz v
    have jpn : s.jumpIf false v = s := jumpIf_of_z_ne (by simp [hz]) v
    rw [jpe, jpn]
    exact ⟨rfl, rfl, rfl, rfl⟩
  · intro hz
    have jpe : s.jumpIf true v = s := jumpIf_of_z_ne (by simp [hz]) v
    have jpn : s.jumpIf false v = { s with pc := v } := jumpIf_of_z_eq hz v
    rw [jpe, jpn]
    exact ⟨rfl, rfl, rfl, rfl⟩

end Sys2Proof.Machine
end

section
/-! PROOFS. The family of 44_io_system.md: OUT and END (rules R181 and R182). -/

namespace Sys2Proof.Machine

variable (s : State)

/-- The byte that leaves the machine is bits 7:0 of the word (rule R181). -/
theorem lowByte_eq_extractLsb' (w : Word) : lowByte w = w.extractLsb' 0 8 :=
  BitVec.setWidth_eq_extractLsb' (by decide)

theorem State.emit_eq (b : Byte) : s.emit b = { s with output := s.output ++ [b] } := rfl

theorem State.finish_eq : s.finish = { s with done := true, runState := .halted } := rfl

/-! ## The instructions, each over its one state operation -/

@[simp] theorem exec_out : exec .out s = .next (s.emit (lowByte s.acc)) := rfl
@[simp] theorem exec_endRun : exec .endRun s = .next s.finish := rfl

/-- Settles O23: OUT emits the low byte of ACC, which is bits 7:0, and an emission replaces the output history alone. -/
theorem outEmitsLowByte : Obligations.OutEmitsLowByte := by
  unfold Obligations.OutEmitsLowByte
  intro s
  rw [exec_out, State.emit_eq, lowByte_eq_extractLsb']

/-- Settles O24: END is the operation that finishes the run, and that replaces the done bit and the run state alone. -/
theorem endHaltsRun : Obligations.EndHaltsRun := by
  unfold Obligations.EndHaltsRun
  intro s
  rw [exec_endRun, State.finish_eq]

end Sys2Proof.Machine
end

section
/-! PROOFS. The word decoder and encoder against the opcode table (rules R84 to R92), and the instructions against the
abstract variants (rules R80, R83). -/

namespace Sys2Proof

/-! ## Decoding after encoding -/

/-- Settles O1: the word by `decode_encode`, the bytes through the word they join to. -/
theorem decodeOfEncodeIsIdentity : Obligations.DecodeOfEncodeIsIdentity := by
  unfold Obligations.DecodeOfEncodeIsIdentity
  intro i
  refine ⟨decode_encode i, fun rest => ?_⟩
  rw [encodeBytes, decodeBytes_bytesOfWord, decode_encode]

/-! ## A word as its four fields -/

/-- The fields cover the word (rule R84). -/
theorem fields_append (w : InstrWord) :
    (fieldOP w ++ fieldRSV w ++ fieldM w ++ fieldOPR w : InstrWord) = w := by
  apply BitVec.eq_of_getLsbD_eq
  intro i hi
  simp only [fieldOP, fieldRSV, fieldM, fieldOPR, BitVec.getLsbD_append, BitVec.getLsbD_extractLsb']
  by_cases opr : i < 16
  · simp [opr]
  · by_cases m : i < 18
    · simp [opr, show i - 16 < 2 by omega, show 16 + (i - 16) = i by omega]
    · by_cases rsv : i < 24
      · simp [opr, show ¬ i - 16 < 2 by omega, show i - 16 - 2 < 6 by omega, show 18 + (i - 16 - 2) = i by omega]
      · simp [opr, show ¬ i - 16 < 2 by omega, show ¬ i - 16 - 2 < 6 by omega,
          show i - 16 - 2 - 6 < 8 by omega, show 24 + (i - 16 - 2 - 6) = i by omega]

/-- A word is the packing of three fields exactly when it has them and `RSV` is 0. -/
theorem eq_packWord_iff (w : InstrWord) (op : Byte) (m : BitVec 2) (opr : Word) :
    w = packWord op m opr ↔ fieldRSV w = 0 ∧ fieldOP w = op ∧ fieldM w = m ∧ fieldOPR w = opr := by
  constructor
  · rintro rfl
    exact ⟨fieldRSV_packWord .., fieldOP_packWord .., fieldM_packWord .., fieldOPR_packWord ..⟩
  · rintro ⟨rsv, rfl, rfl, rfl⟩
    have word := fields_append w
    rw [rsv] at word
    exact word.symm

/-! ## The fields of the legal words -/

/-- `OP` and `M` of the instructions without operand (rules R85, R86, R88). -/
def bareFields : List (Byte × BitVec 2) :=
  [(0x00, 0), (0x01, 0), (0x01, 1), (0x04, 0), (0x08, 0), (0x08, 1), (0x09, 0), (0x09, 1), (0x11, 0)]

/-- `OP` and `M` of the instructions with a 16-bit operand (rules R85, R86, R88). -/
def operandFields : List (Byte × BitVec 2) :=
  [(0x02, 0), (0x02, 1), (0x02, 2), (0x02, 3), (0x03, 0), (0x05, 0), (0x05, 1), (0x06, 0), (0x07, 0), (0x07, 1),
   (0x0A, 0), (0x0B, 0), (0x0C, 0), (0x0C, 1), (0x0D, 0), (0x0D, 1), (0x0E, 0), (0x0E, 1), (0x0F, 0), (0x0F, 1),
   (0x10, 0), (0x10, 1)]

/-- The fields of a legal word. -/
def LegalFields (op : Byte) (m : BitVec 2) (opr : Word) : Prop :=
  (op, m) ∈ bareFields ∧ opr = 0 ∨ (op, m) ∈ operandFields

/-- An instruction is packed from legal fields. -/
theorem encode_legal (i : Instr) : ∃ op m opr, encode i = packWord op m opr ∧ LegalFields op m opr := by
  cases i <;> refine ⟨_, _, _, rfl, ?_⟩ <;> simp [LegalFields, bareFields, operandFields]

theorem decodeBare_ok {opr : Word} {i j : Instr} (h : decodeBare opr i = .ok j) : opr = 0 ∧ i = j := by
  unfold decodeBare at h
  split at h
  · exact ⟨‹_›, Except.ok.inj h⟩
  · cases h

/-- The fields an instruction is decoded from are those its word is packed from. An arm of the decoder is one of three
kinds: without operand, with one, or a rejection. -/
theorem encode_of_decodeFields {op : Byte} {m : BitVec 2} {opr : Word} {i : Instr}
    (h : decodeFields op.toNat m.toNat opr = .ok i) : encode i = packWord op m opr := by
  have packed {n k : Nat} {p : Byte} {q : BitVec 2} (hp : op.toNat = n) (hn : p.toNat = n)
      (hq : m.toNat = k) (hk : q.toNat = k) (v : Word) : packWord p q v = packWord op m v := by
    rw [BitVec.eq_of_toNat_eq (hn.trans hp.symm), BitVec.eq_of_toNat_eq (hk.trans hq.symm)]
  unfold decodeFields at h
  split at h
  all_goals first
    | (obtain ⟨rfl, rfl⟩ := decodeBare_ok h; exact packed ‹_› rfl ‹_› rfl 0)
    | (obtain rfl := Except.ok.inj h; exact packed ‹_› rfl ‹_› rfl opr)
    | (split at h <;> cases h)

theorem decode_eq_ok_iff (w : InstrWord) (i : Instr) :
    decode w = .ok i ↔ encode i = w := by
  constructor
  · intro h
    unfold decode at h
    split at h
    · rename_i rsv
      exact (encode_of_decodeFields h).trans ((eq_packWord_iff ..).mpr ⟨rsv, rfl, rfl, rfl⟩).symm
    · cases h
  · rintro rfl
    exact decode_encode i

/-- Settles O2: a legal word has `RSV` 0 and the three fields its instruction is packed from. -/
theorem encodeOfDecodeIsIdentity : Obligations.EncodeOfDecodeIsIdentity := by
  unfold Obligations.EncodeOfDecodeIsIdentity
  intro w i h
  exact (decode_eq_ok_iff w i).mp h

/-! ## The words the decoder accepts -/

/-- Legal fields are those of an instruction. -/
theorem decode_of_legal {op : Byte} {m : BitVec 2} {opr : Word} (h : LegalFields op m opr) :
    ∃ i, decode (packWord op m opr) = .ok i := by
  rw [decode_packWord]
  obtain ⟨bare, rfl⟩ | operand := h
  · simp only [bareFields, List.mem_cons, Prod.mk.injEq, List.not_mem_nil, or_false] at bare
    rcases bare with h | h | h | h | h | h | h | h | h <;> obtain ⟨rfl, rfl⟩ := h <;> exact ⟨_, rfl⟩
  · simp only [operandFields, List.mem_cons, Prod.mk.injEq, List.not_mem_nil, or_false] at operand
    rcases operand with h | h | h | h | h | h | h | h | h | h | h | h | h | h | h | h | h | h | h | h | h | h <;>
      obtain ⟨rfl, rfl⟩ := h <;> exact ⟨_, rfl⟩

/-- The decoder accepts a word exactly when `RSV` is 0 and the other fields are legal. -/
theorem decode_accepts_iff (w : InstrWord) :
    (∃ i, decode w = .ok i) ↔ fieldRSV w = 0 ∧ LegalFields (fieldOP w) (fieldM w) (fieldOPR w) := by
  constructor
  · rintro ⟨i, h⟩
    obtain ⟨op, m, opr, hi, legal⟩ := encode_legal i
    have hw := ((decode_eq_ok_iff w i).mp h).symm.trans hi
    obtain ⟨rsv, rfl, rfl, rfl⟩ := (eq_packWord_iff ..).mp hw
    exact ⟨rsv, legal⟩
  · rintro ⟨rsv, legal⟩
    obtain ⟨i, h⟩ := decode_of_legal legal
    exact ⟨i, by rwa [← (eq_packWord_iff w _ _ _).mpr ⟨rsv, rfl, rfl, rfl⟩] at h⟩

/-! ## The rows of the opcode table -/

/-- The row of an instruction without operand: every bit is compared. -/
def bareRow (f : Byte × BitVec 2) : TableRow := ⟨packWord f.1 f.2 0, 0xFFFFFFFF⟩

/-- The row of an instruction with an operand: every bit but the operand's is compared. -/
def operandRow (f : Byte × BitVec 2) : TableRow := ⟨packWord f.1 f.2 0, 0xFFFF0000⟩

theorem tableBare_eq_map : tableBare = bareFields.map bareRow := by decide

theorem tableOperand_eq_map : tableOperand = operandFields.map operandRow := by decide

theorem mem_opcodeTable_iff (r : TableRow) :
    r ∈ opcodeTable ↔ (∃ f ∈ bareFields, bareRow f = r) ∨ ∃ f ∈ operandFields, operandRow f = r := by
  rw [opcodeTable, List.mem_append, tableBare_eq_map, tableOperand_eq_map, List.mem_map, List.mem_map]

/-! The mask of an operand row keeps three fields and clears the operand. -/

theorem fieldOP_and_mask (w : InstrWord) : fieldOP (w &&& 0xFFFF0000) = fieldOP w := by
  rw [fieldOP, BitVec.extractLsb'_and]
  exact BitVec.and_allOnes

theorem fieldRSV_and_mask (w : InstrWord) : fieldRSV (w &&& 0xFFFF0000) = fieldRSV w := by
  rw [fieldRSV, BitVec.extractLsb'_and]
  exact BitVec.and_allOnes

theorem fieldM_and_mask (w : InstrWord) : fieldM (w &&& 0xFFFF0000) = fieldM w := by
  rw [fieldM, BitVec.extractLsb'_and]
  exact BitVec.and_allOnes

theorem fieldOPR_and_mask (w : InstrWord) : fieldOPR (w &&& 0xFFFF0000) = 0 := by
  rw [fieldOPR, BitVec.extractLsb'_and]
  exact BitVec.and_zero

theorem bareRow_matches_iff (f : Byte × BitVec 2) (w : InstrWord) :
    (bareRow f).Matches w ↔ fieldRSV w = 0 ∧ (fieldOP w, fieldM w) = f ∧ fieldOPR w = 0 := by
  have all_bits : w &&& 0xFFFFFFFF = w := BitVec.and_allOnes
  rw [TableRow.Matches, bareRow, all_bits, eq_packWord_iff, Prod.ext_iff, and_assoc]

theorem operandRow_matches_iff (f : Byte × BitVec 2) (w : InstrWord) :
    (operandRow f).Matches w ↔ fieldRSV w = 0 ∧ (fieldOP w, fieldM w) = f := by
  rw [TableRow.Matches, operandRow, eq_packWord_iff, fieldRSV_and_mask, fieldOP_and_mask, fieldM_and_mask,
    fieldOPR_and_mask, Prod.ext_iff]
  simp only [and_true]

/-- Settles O3: the words with legal fields are on both sides, the decoder's and the table's. -/
theorem decoderAcceptsTableWords : Obligations.DecoderAcceptsTableWords := by
  unfold Obligations.DecoderAcceptsTableWords
  intro w
  rw [decode_accepts_iff]
  constructor
  · rintro ⟨rsv, ⟨bare, opr⟩ | operand⟩
    · exact ⟨_, (mem_opcodeTable_iff _).mpr (.inl ⟨_, bare, rfl⟩), (bareRow_matches_iff ..).mpr ⟨rsv, rfl, opr⟩⟩
    · exact ⟨_, (mem_opcodeTable_iff _).mpr (.inr ⟨_, operand, rfl⟩), (operandRow_matches_iff ..).mpr ⟨rsv, rfl⟩⟩
  · rintro ⟨r, hr, hw⟩
    obtain ⟨f, bare, rfl⟩ | ⟨f, operand, rfl⟩ := (mem_opcodeTable_iff r).mp hr
    · obtain ⟨rsv, rfl, opr⟩ := (bareRow_matches_iff ..).mp hw
      exact ⟨rsv, .inl ⟨bare, opr⟩⟩
    · obtain ⟨rsv, rfl⟩ := (operandRow_matches_iff ..).mp hw
      exact ⟨rsv, .inr operand⟩

/-- No instruction with an operand has `OP` and `M` of one without. -/
theorem bareFields_operandFields_disjoint : ∀ f ∈ bareFields, f ∉ operandFields := by
  simp [bareFields, operandFields]

/-- The row a word matches, from `OP` and `M` of the word alone. -/
theorem row_of_matches {w : InstrWord} {r : TableRow} (hr : r ∈ opcodeTable) (hw : r.Matches w) :
    r = if (fieldOP w, fieldM w) ∈ bareFields then bareRow (fieldOP w, fieldM w)
      else operandRow (fieldOP w, fieldM w) := by
  obtain ⟨f, bare, rfl⟩ | ⟨f, operand, rfl⟩ := (mem_opcodeTable_iff r).mp hr
  · obtain ⟨-, rfl, -⟩ := (bareRow_matches_iff ..).mp hw
    rw [if_pos bare]
  · obtain ⟨-, rfl⟩ := (operandRow_matches_iff ..).mp hw
    rw [if_neg fun bare => bareFields_operandFields_disjoint _ bare operand]

/-- Settles O4: a word decides the row it matches. -/
theorem tableRowsAreDisjoint : Obligations.TableRowsAreDisjoint := by
  unfold Obligations.TableRowsAreDisjoint
  intro w r hr r' hr' hw hw'
  rw [row_of_matches hr hw, row_of_matches hr' hw']

/-! ## The reserved words -/

/-- A mode that is illegal for an assigned opcode, as rule R89 lists them. -/
abbrev IllegalMode (op : Byte) (m : BitVec 2) : Prop :=
  (2 ≤ m.toNat ∧ op ≠ 0x02) ∨ (m ≠ 0 ∧ op ∈ [0x00#8, 0x03#8, 0x04#8, 0x06#8, 0x0A#8, 0x0B#8, 0x11#8]) ∨
    (2 ≤ m.toNat ∧ op ∈ [0x01#8, 0x08#8, 0x09#8])

/-- An opcode whose instructions have no operand. -/
abbrev BareOpcode (op : Byte) : Prop := op ∈ [0x00#8, 0x01#8, 0x04#8, 0x08#8, 0x09#8, 0x11#8]

theorem legal_opcodes : ∀ f ∈ bareFields ++ operandFields, f.1.toNat < 0x12 := by
  simp [bareFields, operandFields]

/-- The eighteen assigned opcodes under each mode: what rule R89 leaves without operand. -/
theorem mem_bareFields_table : ∀ (op : Fin 0x12) (m : Fin 4),
    (BitVec.ofNat 8 op, BitVec.ofNat 2 m) ∈ bareFields ↔
      ¬ IllegalMode (BitVec.ofNat 8 op) (BitVec.ofNat 2 m) ∧ BareOpcode (BitVec.ofNat 8 op) := by
  decide

/-- The eighteen assigned opcodes under each mode: what rule R89 leaves with an operand. -/
theorem mem_operandFields_table : ∀ (op : Fin 0x12) (m : Fin 4),
    (BitVec.ofNat 8 op, BitVec.ofNat 2 m) ∈ operandFields ↔
      ¬ IllegalMode (BitVec.ofNat 8 op) (BitVec.ofNat 2 m) ∧ ¬ BareOpcode (BitVec.ofNat 8 op) := by
  decide

theorem legalFields_iff (op : Byte) (m : BitVec 2) (opr : Word) :
    LegalFields op m opr ↔ op.toNat < 0x12 ∧ ¬ IllegalMode op m ∧ (BareOpcode op → opr = 0) := by
  by_cases assigned : op.toNat < 0x12
  · have bare := mem_bareFields_table ⟨op.toNat, assigned⟩ ⟨m.toNat, m.isLt⟩
    have operand := mem_operandFields_table ⟨op.toNat, assigned⟩ ⟨m.toNat, m.isLt⟩
    simp only [BitVec.ofNat_toNat, BitVec.setWidth_eq] at bare operand
    rw [LegalFields, bare, operand, and_iff_right assigned, and_assoc, ← and_or_left, imp_iff_or_not, and_or_right,
      and_iff_right (Classical.em _)]
  · have unlisted : (op, m) ∉ bareFields ++ operandFields := fun h => assigned (legal_opcodes _ h)
    rw [List.mem_append, not_or] at unlisted
    simp [LegalFields, unlisted, assigned]

/-- Settles O5: rule R89's list is the negation of legal fields with `RSV` 0. -/
theorem reservedWordsAreThoseListed : Obligations.ReservedWordsAreThoseListed := by
  unfold Obligations.ReservedWordsAreThoseListed
  intro w
  rw [decode_accepts_iff, legalFields_iff]
  simp only [not_and_or, not_not, Nat.not_lt, Classical.not_imp, IllegalMode, BareOpcode, or_assoc]
  rw [or_left_comm, and_comm (a := fieldOP w ∈ _)]

/-! ## The abstract variants -/

/-- Rule R83's modes outside Load, as the choice between two instructions meets them. -/
theorem Mode.choose_eq_none_iff (m : Mode) (i j : Instr) : m.choose i j = none ↔ m.plain = false := by
  cases m <;> simp [Mode.choose, Mode.plain]

theorem Variant.instr_eq_none_iff (v : Variant) : v.instr = none ↔ v.wellFormed = false := by
  cases v with
  | io d => cases d <;> simp [Variant.instr, Variant.wellFormed]
  | load _ m => cases m <;> simp [Variant.instr, Variant.wellFormed]
  | loadIndex _ | move | store _ | increment _ | decrement _ | shiftLeft _ | shiftRight _ | endRun | unknown =>
    simp [Variant.instr, Variant.wellFormed]
  | subtract _ m | add _ m | xor _ m | or _ m | compare _ m | jumpIfZero _ m | jumpIfNotZero _ m =>
    exact m.choose_eq_none_iff ..

/-- The instruction a variant is has that variant back. -/
theorem Variant.variant_of_instr {v : Variant} {i : Instr} (h : v.instr = some i) : i.variant = v := by
  cases v with
  | io d => cases d <;> cases h <;> rfl
  | increment a | decrement a => cases a <;> cases h <;> rfl
  | loadIndex _ | move | store _ | shiftLeft _ | shiftRight _ | endRun | unknown => cases h; rfl
  | load _ m | subtract _ m | add _ m | xor _ m | or _ m | compare _ m | jumpIfZero _ m | jumpIfNotZero _ m =>
    cases m <;> cases h <;> rfl

/-- Settles O7: a variant is no instruction exactly when its mode is illegal, else the one of that variant. -/
theorem legalVariantsAreInstructions : Obligations.LegalVariantsAreInstructions := by
  unfold Obligations.LegalVariantsAreInstructions
  intro v
  refine ⟨fun legal => ?_, v.instr_eq_none_iff.mpr⟩
  cases hi : v.instr with
  | none => simp [v.instr_eq_none_iff.mp hi] at legal
  | some i => exact ⟨i, rfl, Variant.variant_of_instr hi⟩

end Sys2Proof
end

section
/-! PROOFS. The address translation (rules R53 to R55) and the canonical store (rule R52). -/

namespace Sys2Proof.Machine

/-! ## The three cases of the translation -/

section
variable {p : Params} {a : Word}

/-- The variable region (rule R53). -/
theorem phys_variable (h : a.toNat < p.numVars.toNat) : phys p a = a.toNat := by
  rw [phys, if_pos (BitVec.lt_def.mpr h)]

/-- The upper region (rule R53). -/
theorem phys_upper {m : Int} (ha : p.numVars.toNat ≤ a.toNat) (hm : p.minAddr = some m) (threshold : 200 ≤ m)
    (hma : m ≤ a.toNat) : (phys p a : Int) = a.toNat - m + p.numVars.toNat := by
  have upper : Config.threshold ≤ m ∧ m ≤ a.toNat := ⟨threshold, hma⟩
  simp only [phys, BitVec.lt_def, if_neg ha.not_gt, hm, if_pos upper]
  omega

/-- Below MIN_ADDR, or with MIN_ADDR under the threshold, the address is its own index (decision D5). -/
theorem phys_untranslated {m : Int} (hm : p.minAddr = some m) (h : m < 200 ∨ (a.toNat : Int) < m) :
    phys p a = a.toNat := by
  have not_upper : ¬ (Config.threshold ≤ m ∧ m ≤ a.toNat) := by
    rw [Config.threshold]
    omega
  simp only [phys, hm, if_neg not_upper, ite_self]

theorem phys_no_literal (hm : p.minAddr = none) : phys p a = a.toNat := by
  simp only [phys, hm, ite_self]

end

/-- The index of an address: the address itself, or in the upper region the one counted on from NUM_VARS. -/
theorem phys_cases (p : Params) (a : Word) :
    phys p a = a.toNat ∨
      ∃ m, p.minAddr = some m ∧ 200 ≤ m ∧ m ≤ a.toNat ∧ p.numVars.toNat ≤ a.toNat ∧
        (phys p a : Int) = a.toNat - m + p.numVars.toNat := by
  by_cases var : a.toNat < p.numVars.toNat
  · exact .inl (phys_variable var)
  · cases hm : p.minAddr with
    | none => exact .inl (phys_no_literal hm)
    | some m =>
      by_cases upper : 200 ≤ m ∧ m ≤ a.toNat
      · obtain ⟨threshold, hma⟩ := upper
        have ha := Nat.not_lt.mp var
        exact .inr ⟨m, rfl, threshold, hma, ha, phys_upper ha hm threshold hma⟩
      · exact .inl (phys_untranslated hm (by omega))

/-- Settles O33: the three cases, the last once without and once with a MIN_ADDR. -/
theorem translationCases : Obligations.TranslationCases := by
  unfold Obligations.TranslationCases
  intro p a
  exact ⟨phys_variable, fun m => phys_upper, fun m _ => phys_untranslated, phys_no_literal⟩

/-- Settles O34: a translated address has an index from NUM_VARS on, and every other address is its own index. -/
theorem variableCellsAreUnaliased : Obligations.VariableCellsAreUnaliased := by
  unfold Obligations.VariableCellsAreUnaliased
  intro p a b ha same
  have var : a.toNat < p.numVars.toNat := ha
  rw [phys_variable var] at same
  obtain itself | ⟨m, -, -, hmb, -, index⟩ := phys_cases p b
  · exact BitVec.eq_of_toNat_eq (same.trans itself)
  · omega

/-- Settles O35: the lower address is left alone and the upper one translated, to the same index. -/
theorem upperRegionAliases : Obligations.UpperRegionAliases := by
  unfold Obligations.UpperRegionAliases
  intro p m b c hm threshold hb below hc
  have upper := phys_upper (a := c) (by omega) hm threshold (by omega)
  exact ⟨phys_untranslated hm (.inr below), by omega⟩

/-- Settles O36: an address is at most 65535, and a translated one is moved by NUM_VARS less MIN_ADDR. -/
theorem physicalIndexBound : Obligations.PhysicalIndexBound := by
  unfold Obligations.PhysicalIndexBound
  intro p a
  have ha := a.isLt
  refine ⟨fun none => ?_, fun m hm => ?_⟩
  · rw [phys_no_literal none]
    omega
  · obtain itself | ⟨m', hm', -, -, -, index⟩ := phys_cases p a
    · omega
    · obtain rfl : m = m' := Option.some.inj (hm.symm.trans hm')
      omega

/-! ## The canonical store -/

namespace Memory

/-- A listed cell is read at its index. -/
theorem read_head (k : Nat) (w : Word) (rest : Memory) : read ((k, w) :: rest) k = w := by
  simp [read]

/-- The tail of a canonical store is the store with the least cell cleared. -/
theorem read_tail {k : Nat} {w : Word} {rest : Memory} (h : wf ((k, w) :: rest)) (i : Nat) :
    read rest i = if k = i then 0 else read ((k, w) :: rest) i := by
  split
  · subst_vars
    exact read_of_above (wf_above h)
  · simp [read, *]

/-- The least listed index is the least that does not read 0. -/
theorem read_below_head {k i : Nat} {w : Word} {rest : Memory} (h : wf ((k, w) :: rest)) (hi : i < k) :
    read ((k, w) :: rest) i = 0 := by
  rw [read, if_neg hi.ne', read_of_above fun c hc => hi.trans (wf_above h c hc)]

/-- Two canonical stores that read alike do not begin at different indices. -/
theorem head_le_of_read_eq {k k' : Nat} {w w' : Word} {rest rest' : Memory} (h : wf ((k, w) :: rest))
    (h' : wf ((k', w') :: rest')) (same : ∀ i, read ((k, w) :: rest) i = read ((k', w') :: rest') i) : k' ≤ k := by
  by_contra below
  have nonzero : w ≠ 0 := h.2 (k, w) (by simp)
  have zero := same k
  rw [read_head, read_below_head h' (by omega)] at zero
  exact nonzero zero

/-- A canonical store that reads 0 everywhere is empty. -/
theorem eq_nil_of_read_zero {m : Memory} (h : m.wf) (zero : ∀ i, m.read i = 0) : m = [] := by
  cases m with
  | nil => rfl
  | cons cell rest => exact absurd ((read_head ..).symm.trans (zero cell.1)) (h.2 cell (by simp))

theorem eq_of_read_eq {m m' : Memory} (h : m.wf) (h' : m'.wf) (same : ∀ i, m.read i = m'.read i) : m = m' := by
  induction m generalizing m' with
  | nil => exact (eq_nil_of_read_zero h' fun i => (same i).symm).symm
  | cons cell rest ih =>
    cases m' with
    | nil => exact eq_nil_of_read_zero h same
    | cons cell' rest' =>
      obtain ⟨k, w⟩ := cell
      obtain ⟨k', w'⟩ := cell'
      obtain rfl : k = k' := le_antisymm (head_le_of_read_eq h' h fun i => (same i).symm) (head_le_of_read_eq h h' same)
      obtain rfl : w = w' := by simpa only [read_head] using same k
      have tails : rest = rest' :=
        ih (wf_tail h) (wf_tail h') fun i => by rw [read_tail h, read_tail h', same]
      rw [tails]

end Memory

/-- Settles O37: the least cells agree, and so by induction the rest. -/
theorem canonicalStoresAreEqual : Obligations.CanonicalStoresAreEqual := by
  unfold Obligations.CanonicalStoresAreEqual
  exact fun m m' => Memory.eq_of_read_eq

/-! ## STO -/

@[simp] theorem exec_sto (v : Word) (s : State) : exec (.sto v) s = .next (memWrite s v s.acc) := rfl

/-- Rule R59: the address written reads back. -/
theorem memRead_memWrite_same {s : State} (h : s.store.wf) (a v : Word) : memRead (memWrite s a v) a = v :=
  Memory.read_write_same h ..

/-- Settles O11: STO is one write of the store. -/
theorem stoStoresAcc : Obligations.StoStoresAcc := by
  unfold Obligations.StoStoresAcc
  intro s v h
  exact ⟨memWrite s v s.acc, exec_sto v s, memRead_memWrite_same h .., fun k hk => Memory.read_write_other _ hk _, rfl,
    memWrite_store_wf s h ..⟩

end Sys2Proof.Machine
end

section
/-! PROOFS. The loads, MOV, the shifts, IN and UNKNOWN (rules R130 to R135, R164 to R166, R180, R183). -/

namespace Sys2Proof.Machine

variable (s : State) (v : Word)

/-! ## The loads and MOV -/

@[simp] theorem exec_ldd : exec (.ldd v) s = .next (s.loadAcc (memRead s v)) := rfl
@[simp] theorem exec_ldm : exec (.ldm v) s = .next (s.loadAcc v) := rfl
@[simp] theorem exec_ldi : exec (.ldi v) s = .next (s.loadAcc (memRead s (memRead s v))) := rfl
@[simp] theorem exec_ldx :
    exec (.ldx v) s = .next (s.loadAcc (memRead s (BitVec.ofInt 16 ((v.toNat : Int) + s.ix.toInt)))) := rfl
@[simp] theorem exec_mov : exec .mov s = .next (s.setIx s.acc) := rfl

/-- Settles O8: each load is `State.loadAcc` of its operand, and differs only in where the operand comes from. -/
theorem loadsSetAccAndFlags : Obligations.LoadsSetAccAndFlags := by
  unfold Obligations.LoadsSetAccAndFlags
  intro s v loaded
  have loadAcc_eq_loaded (t : Word) : s.loadAcc t = loaded t := s.loadAcc_eq t
  rw [exec_ldd, exec_ldm, exec_ldi, exec_ldx]
  simp only [loadAcc_eq_loaded, and_self]

/-- Settles O10: MOV is the write of IX, with ACC. -/
theorem movCopiesAccToIx : Obligations.MovCopiesAccToIx := by
  unfold Obligations.MovCopiesAccToIx
  intro s
  rw [exec_mov, State.setIx_eq]

/-- Z and N of a word tell zero, negative and positive apart. -/
theorem zero_negative_positive (t : Word) :
    ((zeroFlag t = true ∧ negativeFlag t = false) ↔ t.toInt = 0) ∧
    ((zeroFlag t = false ∧ negativeFlag t = true) ↔ t.toInt < 0) ∧
    ((zeroFlag t = false ∧ negativeFlag t = false) ↔ 0 < t.toInt) := by
  simp only [zeroFlag_iff, zeroFlag_false_iff, negativeFlag_iff, negativeFlag_false_iff, ne_eq, word_eq_zero_iff]
  omega

/-- Settles O28: a load leaves the flags of ACC, and the other three instructions are writes that touch no flag. -/
theorem loadFamilyFlags : Obligations.LoadFamilyFlags := by
  unfold Obligations.LoadFamilyFlags
  intro s v
  constructor
  · have loaded (t : Word) := zero_negative_positive t
    simp only [List.forall_mem_cons, exec_ldd, exec_ldm, exec_ldi, exec_ldx]
    exact ⟨⟨_, rfl, loaded _⟩, ⟨_, rfl, loaded _⟩, ⟨_, rfl, loaded _⟩, ⟨_, rfl, loaded _⟩, by simp⟩
  · simp only [List.forall_mem_cons, exec_ldr, exec_mov, exec_sto]
    exact ⟨⟨_, rfl, rfl⟩, ⟨_, rfl, rfl⟩, ⟨_, rfl, rfl⟩, by simp⟩

/-! ## The shifts -/

section
variable {s : State} {c : Word}

/-- A shift whose count gives a number of places (rule R166). -/
theorem exec_lsl_of_places {k : Nat} (h : shiftPlaces s.params.shiftOverwidth c = some k) :
    exec (.lsl c) s = .next { s with acc := BitVec.ofNat 16 (s.acc.toNat * 2 ^ k),
                                     flags := { s.flags with c := s.acc.getLsbD 15 } } := by
  simp only [exec, execLsl, h]
  rfl

theorem exec_lsr_of_places {k : Nat} (h : shiftPlaces s.params.shiftOverwidth c = some k) :
    exec (.lsr c) s = .next { s with acc := BitVec.ofNat 16 (s.acc.toNat / 2 ^ k),
                                     flags := { s.flags with c := s.acc.getLsbD 0 } } := by
  simp only [exec, execLsr, h]
  rfl

/-- A shift whose count gives none is refused, by the count. -/
theorem exec_shift_refused (h : shiftPlaces s.params.shiftOverwidth c = none) :
    exec (.lsl c) s = .refused (.shiftOverwidth c) ∧ exec (.lsr c) s = .refused (.shiftOverwidth c) := by
  simp [exec, execLsl, execLsr, h]

theorem shiftPlaces_below (setting : ShiftOverwidth) (h : c.toNat < 16) : shiftPlaces setting c = some c.toNat := by
  simp [shiftPlaces, h]

theorem shiftPlaces_refuse (h : 16 ≤ c.toNat) : shiftPlaces .refuse c = none := by
  rw [shiftPlaces, if_neg h.not_gt]

theorem shiftPlaces_zero (h : 16 ≤ c.toNat) : shiftPlaces .zero c = some 16 := by
  rw [shiftPlaces, if_neg h.not_gt]

theorem shiftPlaces_mod16 (h : 16 ≤ c.toNat) : shiftPlaces .mod16 c = some (c.toNat % 16) := by
  rw [shiftPlaces, if_neg h.not_gt]

end

/-- Settles O18: a count below 16 is the number of places itself. -/
theorem shiftsBelowSixteen : Obligations.ShiftsBelowSixteen := by
  unfold Obligations.ShiftsBelowSixteen
  intro s c small
  have places := shiftPlaces_below s.params.shiftOverwidth small
  exact ⟨exec_lsl_of_places places, exec_lsr_of_places places⟩

/-- Settles O19: none, sixteen, or the count modulo 16 is the number of places, by the setting; sixteen leave 0. -/
theorem shiftsOverWidth : Obligations.ShiftsOverWidth := by
  unfold Obligations.ShiftsOverWidth
  intro s c wide
  refine ⟨fun setting => ?refuse, fun setting => ?zero, fun setting => ?mod16⟩
  case refuse => exact exec_shift_refused (by rw [setting, shiftPlaces_refuse wide])
  case zero =>
    have places : shiftPlaces s.params.shiftOverwidth c = some 16 := by rw [setting, shiftPlaces_zero wide]
    have left : BitVec.ofNat 16 (s.acc.toNat * 2 ^ 16) = 0 := BitVec.eq_of_toNat_eq (by simp)
    have right : BitVec.ofNat 16 (s.acc.toNat / 2 ^ 16) = 0 := by
      rw [Nat.div_eq_of_lt s.acc.isLt]
      rfl
    rw [exec_lsl_of_places places, exec_lsr_of_places places, left, right]
    exact ⟨rfl, rfl⟩
  case mod16 =>
    have below : c.toNat % 16 < 16 := Nat.mod_lt _ (by decide)
    have reduced : (BitVec.ofNat 16 (c.toNat % 16)).toNat = c.toNat % 16 := by
      rw [BitVec.toNat_ofNat, Nat.mod_eq_of_lt (by omega)]
    have places : shiftPlaces s.params.shiftOverwidth c = some (c.toNat % 16) := by
      rw [setting, shiftPlaces_mod16 wide]
    have places' : shiftPlaces s.params.shiftOverwidth (BitVec.ofNat 16 (c.toNat % 16)) = some (c.toNat % 16) := by
      rw [shiftPlaces_below _ (by rwa [reduced]), reduced]
    rw [exec_lsl_of_places places, exec_lsl_of_places places', exec_lsr_of_places places, exec_lsr_of_places places']
    exact ⟨rfl, rfl⟩

/-! ## IN and UNKNOWN -/

section
variable {s : State}

theorem exec_inp_of_byte {b : Byte} (h : inputByte s = some b) :
    exec .inp s = .next (s.consumeInput.loadAcc (widenByte b)) := by
  simp only [exec, execInp, h]

theorem exec_inp_exhausted (h : inputByte s = none) : exec .inp s = .fault .blockedOnInput := by
  simp only [exec, execInp, h]

end

theorem widenByte_toNat (b : Byte) : (widenByte b).toNat = b.toNat :=
  BitVec.toNat_setWidth_of_le (by decide)

/-- A zero-extended byte is 0 only when the byte is (decision D16). -/
theorem zeroFlag_widenByte (b : Byte) : zeroFlag (widenByte b) = decide (b = 0) := by
  rw [zeroFlag, decide_eq_decide, ← BitVec.toNat_inj, ← BitVec.toNat_inj, widenByte_toNat]
  rfl

/-- A zero-extended byte is never negative (decision D16). -/
theorem negativeFlag_widenByte (b : Byte) : negativeFlag (widenByte b) = false := by
  have small := b.isLt
  rw [negativeFlag_false_iff, BitVec.toInt_eq_toNat_cond, widenByte_toNat, if_pos (by omega)]
  omega

/-- Settles O21: IN loads the zero-extended byte, after the input position is advanced. -/
theorem inReadsByte : Obligations.InReadsByte := by
  unfold Obligations.InReadsByte
  intro s b h
  have byte : inputByte s = some b := h
  have value : widenByte b = BitVec.ofNat 16 b.toNat := (BitVec.ofNat_toNat 16 b).symm
  have z := zeroFlag_widenByte b
  have n := negativeFlag_widenByte b
  rw [zeroFlag] at z
  rw [negativeFlag] at n
  rw [exec_inp_of_byte byte, State.loadAcc_eq, z, n, value]
  rfl

@[simp] theorem exec_unknown : exec .unknown s = .next (s.diagnose .unknownInstruction (s.pc - 1)) := rfl

/-- Settles O25: UNKNOWN is the append of one record to the diagnostic history. -/
theorem unknownReportsIndex : Obligations.UnknownReportsIndex := by
  unfold Obligations.UnknownReportsIndex
  intro s
  rw [exec_unknown, State.diagnose]

end Sys2Proof.Machine
end

section
/-! PROOFS. The laws of the checked arithmetic (rules R141, R142). -/

namespace Sys2Proof.Machine

/-- One addition or subtraction of two words stays within one turn of the signed range. -/
theorem exact_bounds (op : ArithOp) (a b : Word) :
    -65536 ≤ op.exact a.toInt b.toInt ∧ op.exact a.toInt b.toInt ≤ 65535 := by
  have := word_bounds a
  have := word_bounds b
  cases op <;> simp only [exact_add, exact_sub] <;> omega

/-- The wrapped result by cases on the exact one. -/
theorem arith_res_cases (op : ArithOp) (a b : Word) :
    (32767 < op.exact a.toInt b.toInt ∧ (arith op a b).res.toInt = op.exact a.toInt b.toInt - 65536) ∨
    (op.exact a.toInt b.toInt < -32768 ∧ (arith op a b).res.toInt = op.exact a.toInt b.toInt + 65536) ∨
    (-32768 ≤ op.exact a.toInt b.toInt ∧ op.exact a.toInt b.toInt ≤ 32767 ∧
      (arith op a b).res.toInt = op.exact a.toInt b.toInt) :=
  wrap16_cases (exact_bounds op a b).1 (exact_bounds op a b).2

theorem arith_res_toInt (op : ArithOp) (a b : Word) :
    let r : Int := op.exact a.toInt b.toInt
    (arith op a b).res.toInt = if 32767 < r then r - 65536 else if r < -32768 then r + 65536 else r := by
  have := arith_res_cases op a b
  dsimp only
  split_ifs <;> omega

theorem arith_z_iff (op : ArithOp) (a b : Word) :
    (arith op a b).flags.z = true ↔ (arith op a b).res.toInt = 0 :=
  (zeroFlag_iff _).trans (word_eq_zero_iff _)

theorem arith_n_iff (op : ArithOp) (a b : Word) :
    (arith op a b).flags.n = true ↔ (arith op a b).res.toInt < 0 := negativeFlag_iff _

theorem arith_v_iff (op : ArithOp) (a b : Word) : (arith op a b).flags.v = true ↔
    (32767 < op.exact a.toInt b.toInt ∨ op.exact a.toInt b.toInt < -32768) := overflows_iff _

/-- The word 0x8000 is the least, -32768. -/
theorem word_eq_least_iff (a : Word) : a = 0x8000 ↔ a.toInt = -32768 := by
  rw [← BitVec.toInt_inj]
  rfl

/-- Settles O26: every fact is linear arithmetic over the bounds of a word and the cases of the wrapped result. -/
theorem checkedArithmetic : Obligations.CheckedArithmetic := by
  unfold Obligations.CheckedArithmetic
  refine ⟨fun op a b => ?whole, fun a b => ⟨rfl, rfl⟩, fun a b => ?positives, fun a b => ?negatives, fun a b => ?zero,
    fun a b => ?signs, fun a => ?least⟩
  case whole =>
    intro r x
    exact ⟨arith_res_toInt op a b, zeroFlag_iff _, negativeFlag_iff _, overflows_iff _, rfl, exact_bounds op a b⟩
  all_goals
    have := word_bounds a
  case least =>
    have : (0x8000 : Word).toInt = -32768 := by decide
    rw [arith_v_iff, exact_sub]
    omega
  all_goals
    have := word_bounds b
  case positives =>
    have := arith_res_cases .add a b
    rw [arith_v_iff, arith_n_iff]
    rw [exact_add] at *
    omega
  case negatives =>
    have := arith_res_cases .add a b
    rw [arith_v_iff]
    rw [exact_add] at *
    omega
  case zero =>
    have := arith_res_cases .add a b
    rw [arith_v_iff, arith_z_iff, word_eq_least_iff, word_eq_least_iff]
    rw [exact_add] at *
    omega
  case signs =>
    have := arith_res_cases .sub a b
    rw [arith_v_iff]
    rw [exact_sub] at *
    omega

/-- The flags of a difference as a comparison (rule R142): Z is equality, N is "below" unless V inverts it. -/
theorem arith_sub_compares (a b : Word) :
    ((arith .sub a b).flags.z = true ↔ a = b) ∧
    ((arith .sub a b).flags.v = false → ((arith .sub a b).flags.n = true ↔ a.toInt < b.toInt)) ∧
    ((arith .sub a b).flags.v = true → ((arith .sub a b).flags.n = true ↔ ¬ a.toInt < b.toInt)) := by
  have := word_bounds a
  have := word_bounds b
  have := arith_res_cases .sub a b
  rw [← Bool.not_eq_true, arith_v_iff, arith_z_iff, arith_n_iff, ← BitVec.toInt_inj]
  rw [exact_sub] at *
  refine ⟨?_, ?_, ?_⟩ <;> omega

/-- Settles O27: CMP sets the flags of the difference and keeps ACC. -/
theorem compareTestsEquality : Obligations.CompareTestsEquality := by
  unfold Obligations.CompareTestsEquality
  intro s v judged
  have compared (b : Word) : judged b (s.setFlags (arith .sub s.acc b).flags) := ⟨rfl, arith_sub_compares s.acc b⟩
  exact ⟨⟨_, exec_cmpDirect s v, compared _⟩, ⟨_, exec_cmpImmediate s v, compared _⟩⟩

end Sys2Proof.Machine
end

section
/-! PROOFS. What an instruction writes and leaves unchanged, for every instruction: the flag table, register writers,
the memory frame, the streams and latches (10_state.md, 20_memory.md). -/

namespace Sys2Proof.Machine

/-- What an instruction that answers a state does to the registers and flags, with its entries in the tables of the
classes: each form says where the flags come from, which `Effect` leaves open. -/
inductive RegisterEffect (i : Instr) (s : State) : State → Prop where
  /-- The loads, XOR and OR. -/
  | load (x : Word) (acc : i.writesAcc = true) (zn : i.writesZN = true) (v : i.writesV = false) :
      RegisterEffect i s (s.loadAcc x)
  /-- IN. -/
  | input (x : Word) (acc : i.writesAcc = true) (zn : i.writesZN = true) (v : i.writesV = false) :
      RegisterEffect i s (s.consumeInput.loadAcc x)
  /-- ADD, SUB, INC ACC and DEC ACC. -/
  | arithmetic (op : ArithOp) (b : Word) (acc : i.writesAcc = true) (zn : i.writesZN = true) (v : i.writesV = true) :
      RegisterEffect i s (s.commitArith (arith op s.acc b))
  /-- CMP. -/
  | compare (b : Word) (acc : i.writesAcc = false) (zn : i.writesZN = true) (v : i.writesV = true) :
      RegisterEffect i s (s.setFlags (arith .sub s.acc b).flags)
  /-- LSL and LSR. -/
  | shift (x : Word) (carry : Bool) (acc : i.writesAcc = true) (zn : i.writesZN = false) (v : i.writesV = false)
      (isShift : i.isShift = true) :
      RegisterEffect i s ((s.setAcc x).setFlags (s.flags.withC carry))
  /-- LDR, MOV, INC IX and DEC IX. -/
  | index (x : Word) (ix : i.writesIx = true) (zn : i.writesZN = false) (v : i.writesV = false) :
      RegisterEffect i s (s.setIx x)
  /-- A jump taken. -/
  | jump (target : Word) (h : i.jumpTarget = some target) (zn : i.writesZN = false) (v : i.writesV = false) :
      RegisterEffect i s (s.setPc target)
  /-- A jump not taken, STO, OUT, END and UNKNOWN: no register and no flag. -/
  | none (t : State) (acc : t.acc = s.acc) (ix : t.ix = s.ix) (pc : t.pc = s.pc) (flags : t.flags = s.flags)
      (zn : i.writesZN = false) (v : i.writesV = false) : RegisterEffect i s t

theorem jumpIf_registerEffect {i : Instr} (s : State) (polarity : Bool) {target : Word}
    (h : i.jumpTarget = some target) (zn : i.writesZN = false) (v : i.writesV = false) :
    RegisterEffect i s (s.jumpIf polarity target) := by
  obtain ⟨-, taken⟩ | ⟨-, stays⟩ := jumpIf_cases s polarity target
  · rw [taken]
    exact .jump target h zn v
  · rw [stays]
    exact .none s rfl rfl rfl rfl zn v

theorem exec_registerEffect {i : Instr} {s t : State} (h : exec i s = .next t) : RegisterEffect i s t := by
  cases i with
  | ldd _ | ldm _ | ldi _ | ldx _ | xorDirect _ | xorImmediate _ | orDirect _ | orImmediate _ =>
    cases h
    exact .load _ rfl rfl rfl
  | inp =>
    obtain ⟨b, -, rfl⟩ := execInp_cases h
    exact .input _ rfl rfl rfl
  | addDirect _ | addImmediate _ | subDirect _ | subImmediate _ | incAcc | decAcc =>
    cases h
    exact .arithmetic _ _ rfl rfl rfl
  | cmpDirect _ | cmpImmediate _ =>
    cases h
    exact .compare _ rfl rfl rfl
  | lsl c =>
    obtain ⟨k, -, rfl⟩ := execLsl_cases h
    exact .shift _ _ rfl rfl rfl rfl
  | lsr c =>
    obtain ⟨k, -, rfl⟩ := execLsr_cases h
    exact .shift _ _ rfl rfl rfl rfl
  | ldr _ | mov | incIx | decIx =>
    cases h
    exact .index _ rfl rfl rfl
  | jpeDirect _ | jpeImmediate _ | jpnDirect _ | jpnImmediate _ =>
    cases h
    exact jumpIf_registerEffect s _ rfl rfl rfl
  | sto _ | out | endRun | unknown =>
    cases h
    exact .none _ rfl rfl rfl rfl rfl rfl

/-- Settles O29: where the flags come from is one case for each class of the table. -/
theorem flagWritesFollowTable : Obligations.FlagWritesFollowTable := by
  unfold Obligations.FlagWritesFollowTable
  intro i s t h
  cases exec_registerEffect h with
  | load x acc zn v | input x acc zn v => simp [zn, v]
  | arithmetic op b acc zn v => simp [zn, v]
  | compare b acc zn v => simp [zn, acc, v]
  | shift x carry acc zn v isShift => simp [zn, v, isShift]
  | index x ix zn v => simp [zn, v]
  | jump target ht zn v => simp [zn, v]
  | none t acc ix pc flags zn v => simp [flags, zn, v]

/-- Settles O30: a form that writes a register belongs to an instruction listed as writing it. -/
theorem registerWritersAreListed : Obligations.RegisterWritersAreListed := by
  unfold Obligations.RegisterWritersAreListed
  intro i s t h
  cases exec_registerEffect h with
  | load x acc | input x acc | arithmetic op b acc | shift x carry acc => simp [acc]
  | compare b => simp
  | index x ix => simp [ix]
  | jump target ht => simp [ht]
  | none t acc ix pc => simp [acc, ix, pc]

/-- An instruction that stores nothing leaves the store. -/
theorem exec_store_of_not_sto {i : Instr} {s t : State} (h : exec i s = .next t) (hi : ∀ a, i ≠ .sto a) :
    t.store = s.store := by
  cases exec_effect h with
  | store a ha => exact absurd ha (hi a)
  | accFlags | flagsOnly | index | jump | fall | input | output | finish | unknown => rfl

theorem storeAddress_eq_some {i : Instr} {a : Word} (h : i.storeAddress = some a) : i = .sto a := by
  cases i <;> cases h
  rfl

/-- Settles O31: STO writes the one cell of its address, and no other instruction has a store address. -/
theorem onlyStoreTargetsChange : Obligations.OnlyStoreTargetsChange := by
  unfold Obligations.OnlyStoreTargetsChange
  intro i s t h
  refine ⟨fun a ha k hk => ?_, fun none => exec_store_of_not_sto h ?_⟩
  · obtain rfl := storeAddress_eq_some ha
    cases h
    exact Memory.read_write_other _ hk _
  · rintro a rfl
    cases none

/-- The `done` latch after an instruction: set by END, else as before. -/
theorem exec_done {i : Instr} {s t : State} (h : exec i s = .next t) : t.done = (s.done || decide (i = .endRun)) := by
  by_cases hi : i = .endRun
  · subst hi
    cases h
    simp
  · cases exec_effect h with
    | finish he => exact absurd he hi
    | accFlags | flagsOnly | index | store | jump | fall | input | output | unknown => simp [hi]

/-- No instruction writes the parameters. -/
theorem exec_params {i : Instr} {s t : State} (h : exec i s = .next t) : t.params = s.params := by
  cases exec_effect h <;> rfl

/-- Each stream is touched by its own instruction only. -/
theorem exec_streams {i : Instr} {s t : State} (h : exec i s = .next t) :
    (i ≠ .out → t.output = s.output) ∧ (i ≠ .unknown → t.diags = s.diags) ∧ (i ≠ .inp → t.inputPos = s.inputPos) := by
  cases exec_effect h with
  | input b hi => simp [hi]
  | output hi => simp [hi]
  | unknown hi => simp [hi]
  | accFlags | flagsOnly | index | store | jump | fall | finish => simp

/-- Settles O32: the frame of the parameters, of the driver's fields, of `done`, of the run state and of the streams. -/
theorem streamsAndLatchesFrame : Obligations.StreamsAndLatchesFrame := by
  unfold Obligations.StreamsAndLatchesFrame
  intro i s t h
  obtain ⟨latch, ctrl, awaiting⟩ := exec_driver_fields h
  exact ⟨exec_params h, latch, ctrl, awaiting, exec_done h, fun hi => by rw [exec_runState h, if_neg hi],
    exec_streams h⟩

end Sys2Proof.Machine
end

section
/-! PROOFS. The step rule (rule R24): the fetched instruction, the end of the program, reserved words and the terminal
states. -/

namespace Sys2Proof.Machine

variable {s : State}

/-! ## A step of a running machine between instructions -/

section
variable (run : s.runState = .running) (idle : s.awaitingCommand = false) (bound : s.params.prog.length ≤ 65535)
include run idle bound

theorem step_of_fetch {w : InstrWord} (h : fetch s = some w) : step s = executeWord w s := by
  simp [step_running run, idle, iterate_fit bound, h]

theorem step_past_end (h : fetch s = none) : step s = .next (s.raise .fetchPastEnd s.pc) := by
  simp [step_running run, idle, iterate_fit bound, h]

theorem step_of_decode {w : InstrWord} {i : Instr} (h : fetch s = some w) (hi : decode w = .ok i) :
    step s = atControlPoint (exec i s.advancePc) := by
  rw [step_of_fetch run idle bound h, executeWord_ok hi]

end

/-- Settles O38: the fetched word decodes, and its instruction and control point are the step. -/
theorem stepRunsDecodedInstruction : Obligations.StepRunsDecodedInstruction := by
  unfold Obligations.StepRunsDecodedInstruction
  intro s w i run idle bound h hi
  rw [step_of_decode run idle bound h hi]
  rfl

/-- Settles O41: the run state alone decides the stop. -/
theorem terminalStatesTakeNoStep : Obligations.TerminalStatesTakeNoStep := by
  unfold Obligations.TerminalStatesTakeNoStep
  intro s
  refine ⟨fun h => ?_, fun h => ?_, fun h => ?_⟩ <;> simp only [step, driverStep, h]

/-- Settles O40: at or past the end nothing is fetched, and the raised state is Aborted. -/
theorem fetchPastEndAborts : Obligations.FetchPastEndAborts := by
  unfold Obligations.FetchPastEndAborts
  intro s run idle bound past
  have nothing : fetch s = none := List.getElem?_eq_none past
  exact ⟨_, step_past_end run idle bound nothing, rfl, (terminalStatesTakeNoStep _).2.1 rfl⟩

/-- Settles O42: the fetched word decodes to no instruction. -/
theorem reservedWordIsRefused : Obligations.ReservedWordIsRefused := by
  unfold Obligations.ReservedWordIsRefused
  intro s w run idle bound h reserved
  rw [step_of_fetch run idle bound h, executeWord_reserved reserved]

/-- A machine about to execute IN with INPUT exhausted is blocked (rule R180). -/
theorem step_inp_exhausted (run : s.runState = .running) (idle : s.awaitingCommand = false)
    (bound : s.params.prog.length ≤ 65535) {w : InstrWord} (h : fetch s = some w) (hi : decode w = .ok .inp)
    (exhausted : inputByte s = none) : step s = .fault .blockedOnInput := by
  have no_byte : inputByte s.advancePc = none := exhausted
  rw [step_of_decode run idle bound h hi, exec_inp_exhausted no_byte, atControlPoint]

/-- Settles O22: the word is IN, and no byte stands at the input position. -/
theorem inBlocksWithoutInput : Obligations.InBlocksWithoutInput := by
  unfold Obligations.InBlocksWithoutInput
  intro s run idle bound h exhausted
  exact step_inp_exhausted run idle bound h (decode_encode .inp) (List.getElem?_eq_none exhausted)

/-! ## The program counter -/

theorem fetch_lt_length {w : InstrWord} (h : fetch s = some w) : s.pc.toNat < s.params.prog.length := by
  obtain ⟨below, -⟩ := List.getElem?_eq_some_iff.mp h
  exact below

theorem advancePc_toNat (h : s.pc.toNat < 65535) : s.advancePc.pc.toNat = s.pc.toNat + 1 := by
  have one : (1 : Word).toNat = 1 := rfl
  rw [State.advancePc_pc, BitVec.toNat_add, one]
  exact Nat.mod_eq_of_lt (by omega)

/-- An instruction without a jump target leaves PC. -/
theorem exec_pc_of_no_target {i : Instr} {t : State} (h : exec i s = .next t) (hi : i.jumpTarget = none) :
    t.pc = s.pc := by
  obtain ⟨-, -, kept | jumped⟩ := registerWritersAreListed i s t h
  · exact kept
  · cases hi.symm.trans jumped

/-- Settles O39: a fetched PC is below PROG_LEN, so its increment does not wrap; the control point leaves PC. -/
theorem pcIncrementIsExact : Obligations.PcIncrementIsExact := by
  unfold Obligations.PcIncrementIsExact
  intro s w bound h
  have below := fetch_lt_length h
  have exact_pc := advancePc_toNat (s := s) (by omega)
  refine ⟨exact_pc, by omega, fun i t idle hi no_target ht => ?_⟩
  obtain ⟨-, ⟨waits, -⟩ | ⟨-, past, -⟩ | ⟨-, w', i', u, hw', hi', hu, rfl⟩⟩ := step_cases ht
  · simp [idle] at waits
  · simp [h] at past
  · obtain rfl : w = w' := Option.some.inj (h.symm.trans hw')
    obtain rfl : i = i' := Except.ok.inj (hi.symm.trans hi')
    rw [controlPoint_pc, exec_pc_of_no_target hu no_target, exact_pc]

end Sys2Proof.Machine
end

section
/-! PROOFS. The control point (rule R203). -/

namespace Sys2Proof.Machine

variable {s : State}

theorem controlPoint_of_latch (h : s.continueLatch = true) : controlPoint s = { s with awaitingCommand := false } := by
  rw [controlPoint, if_pos h]

theorem controlPoint_of_command (h : s.continueLatch = false) {c : Command} {rest : List Command}
    (hc : readCommand s.ctrl = some (c, rest)) :
    controlPoint s = applyCommand { s with ctrl := rest, awaitingCommand := false } c := by
  simp [controlPoint, h, hc]

theorem controlPoint_of_no_command (h : s.continueLatch = false) (hc : readCommand s.ctrl = none) :
    controlPoint s = { s with ctrl := [], awaitingCommand := decide (s.runState = .running) } := by
  simp [controlPoint, h, hc]

/-- A recognised command is read, whatever unrecognised ones stand before it. -/
theorem readCommand_junk {junk : List Command} (h : ∀ c ∈ junk, c = .unrecognised) {c : Command}
    (hc : c ≠ .unrecognised) (rest : List Command) : readCommand (junk ++ c :: rest) = some (c, rest) := by
  rw [readCommand_append h]
  cases c with
  | step | cont | quit => rfl
  | unrecognised => exact absurd rfl hc

/-- Settles O43: the latch, or the first recognised command, decides what the control point does. -/
theorem controlPointProtocol : Obligations.ControlPointProtocol := by
  unfold Obligations.ControlPointProtocol
  intro s junk rest hj
  refine ⟨controlPoint_of_latch, fun latch => ?_⟩
  have applied {c : Command} (hc : c ≠ .unrecognised) (ctrl : s.ctrl = junk ++ c :: rest) :
      controlPoint s = applyCommand { s with ctrl := rest, awaitingCommand := false } c :=
    controlPoint_of_command latch (by rw [ctrl, readCommand_junk hj hc])
  refine ⟨fun h => ?step, fun h => ?cont, fun h running => ?quit, fun h halted => ?quitHalted, fun h => ?none⟩
  case step => rw [applied (by decide) h, applyCommand]
  case cont => rw [applied (by decide) h, applyCommand]
  case quit => rw [applied (by decide) h, applyCommand, if_neg running]
  case quitHalted => rw [applied (by decide) h, applyCommand, if_pos halted, ← halted]
  case none =>
    subst h
    exact controlPoint_of_no_command latch ((readCommand_none_iff _).mpr hj)

/-- A waiting driver completes its control point, or is blocked. -/
theorem step_waiting (run : s.runState = .running) (waits : s.awaitingCommand = true) :
    step s = if commandAvailable s then .next (controlPoint s) else .fault .blockedOnCommand := by
  rw [step_running run, if_pos waits, resumeControl]

/-- Settles O44: whether a command is available is whether the latch is 1 or a recognised one is there. -/
theorem waitingDriverResumes : Obligations.WaitingDriverResumes := by
  unfold Obligations.WaitingDriverResumes
  intro s run waits
  rw [step_waiting run waits]
  refine ⟨fun latch none => ?_, fun command => ?_⟩
  · rw [(commandAvailable_false_iff s).mpr ⟨latch, none⟩]
    rfl
  · have available : commandAvailable s = true := by
      rw [← Bool.not_eq_false, commandAvailable_false_iff]
      rintro ⟨latch, none⟩
      obtain latch' | ⟨c, hc, recognised⟩ := command
      · simp [latch] at latch'
      · exact recognised (none c hc)
    rw [if_pos available]

end Sys2Proof.Machine
end

section
/-! PROOFS. What every step keeps: the histories that only grow, and the invariant of the machine (rules R30 to R38). -/

namespace Sys2Proof.Machine

/-! ## The histories -/

/-- `t` comes after `s` in one run: what a step never takes back. -/
structure State.Extends (t s : State) : Prop where
  params : t.params = s.params
  output : s.output <+: t.output
  diags : s.diags <+: t.diags
  input : s.inputPos ≤ t.inputPos
  latch : s.continueLatch = true → t.continueLatch = true
  done : s.done = true → t.done = true

section
variable {s t u : State}

theorem State.Extends.trans (h : u.Extends t) (h' : t.Extends s) : u.Extends s where
  params := h.params.trans h'.params
  output := h'.output.trans h.output
  diags := h'.diags.trans h.diags
  input := h'.input.trans h.input
  latch := h.latch ∘ h'.latch
  done := h.done ∘ h'.done

theorem State.advancePc_extends (s : State) : s.advancePc.Extends s :=
  ⟨rfl, List.prefix_rfl, List.prefix_rfl, le_rfl, id, id⟩

theorem State.raise_extends (s : State) (k : DiagKind) (x : Word) : (s.raise k x).Extends s :=
  ⟨rfl, List.prefix_rfl, List.prefix_append .., le_rfl, id, id⟩

theorem controlPoint_extends (s : State) : (controlPoint s).Extends s where
  params := controlPoint_params s
  output := by rw [controlPoint_output]
  diags := by rw [controlPoint_diags]
  input := (controlPoint_inputPos s).ge
  latch h := by rw [controlPoint_of_latch h]; exact h
  done h := by rw [controlPoint_done, h]

theorem exec_extends {i : Instr} (h : exec i s = .next t) : t.Extends s := by
  cases exec_effect h with
  | input b => exact ⟨rfl, List.prefix_rfl, List.prefix_rfl, Nat.le_succ _, id, id⟩
  | output => exact ⟨rfl, List.prefix_append .., List.prefix_rfl, le_rfl, id, id⟩
  | unknown => exact ⟨rfl, List.prefix_rfl, List.prefix_append .., le_rfl, id, id⟩
  | finish => exact ⟨rfl, List.prefix_rfl, List.prefix_rfl, le_rfl, id, fun _ => rfl⟩
  | accFlags | flagsOnly | index | store | jump | fall =>
    exact ⟨rfl, List.prefix_rfl, List.prefix_rfl, le_rfl, id, id⟩

theorem step_extends (h : step s = .next t) : t.Extends s := by
  obtain ⟨-, ⟨-, -, rfl⟩ | ⟨-, -, rfl⟩ | ⟨-, w, i, u, -, -, hu, rfl⟩⟩ := step_cases h
  · exact controlPoint_extends s
  · exact s.raise_extends ..
  · exact (controlPoint_extends u).trans ((exec_extends hu).trans s.advancePc_extends)

end

/-- Settles O46: a step is made of operations that each extend the histories. -/
theorem historiesOnlyGrow : Obligations.HistoriesOnlyGrow := by
  unfold Obligations.HistoriesOnlyGrow
  intro s t h
  obtain ⟨params, output, diags, input, latch, done⟩ := step_extends h
  exact ⟨params, output, diags, input, latch, done⟩

/-! ## The invariant -/

/-- Settles O48: at reset nothing is stored, read, recorded or over. -/
theorem resetHasInvariant : Obligations.ResetHasInvariant := by
  unfold Obligations.ResetHasInvariant
  exact ⟨Memory.nil_wf, by simp [State.reset], by simp [State.reset], Nat.zero_le _, by simp [State.reset],
    by simp [State.reset]⟩

/-- Settles O50: the reset value field by field; a cell is read in the empty store. -/
theorem resetValues : Obligations.ResetValues := by
  unfold Obligations.ResetValues
  exact ⟨rfl, rfl, rfl, rfl, rfl, rfl, fun _ => rfl, rfl, rfl, rfl, rfl⟩

section
variable {s t : State} (inv : s.Inv)
include inv

/-- A machine that is not Aborted has no FetchPastEnd on record. -/
theorem no_fetchPastEnd (h : s.runState ≠ .aborted) : ¬ ∃ d ∈ s.diags, d.kind = .fetchPastEnd :=
  fun recorded => h (inv.aborted_iff.mpr recorded)

theorem advancePc_inv : s.advancePc.Inv :=
  ⟨inv.store_wf, inv.done_iff, inv.waiting, inv.input_le, inv.aborted_iff, inv.runtime_kinds⟩

/-- Recording an Unknown keeps the invariant. -/
theorem diagnose_unknown_inv (x : Word) : (s.diagnose .unknownInstruction x).Inv where
  store_wf := inv.store_wf
  done_iff := inv.done_iff
  waiting := inv.waiting
  input_le := inv.input_le
  aborted_iff := by simpa [or_and_right, exists_or] using inv.aborted_iff
  runtime_kinds := by simpa [or_imp, forall_and] using inv.runtime_kinds

/-- FetchPastEnd keeps the invariant: with the record the run is Aborted. -/
theorem raise_fetchPastEnd_inv (run : s.runState = .running) (idle : s.awaitingCommand = false) (x : Word) :
    (s.raise .fetchPastEnd x).Inv where
  store_wf := inv.store_wf
  done_iff := by simpa [run] using inv.done_iff
  waiting := by simp [idle]
  input_le := inv.input_le
  aborted_iff := by simp
  runtime_kinds := by simpa [or_imp, forall_and] using inv.runtime_kinds

/-- END keeps the invariant: `done` and Halted come together. -/
theorem finish_inv (run : s.runState = .running) (idle : s.awaitingCommand = false) : s.finish.Inv where
  store_wf := inv.store_wf
  done_iff := by simp
  waiting := by simp [idle]
  input_le := inv.input_le
  aborted_iff := by simpa using no_fetchPastEnd inv (by simp [run])
  runtime_kinds := inv.runtime_kinds

theorem exec_inv (run : s.runState = .running) (idle : s.awaitingCommand = false) {i : Instr}
    (h : exec i s = .next t) : t.Inv := by
  have ⟨store_wf, done_iff, waiting, input_le, aborted_iff, runtime_kinds⟩ := inv
  cases exec_effect h with
  | accFlags | flagsOnly | index | jump | fall | output =>
    exact ⟨store_wf, done_iff, waiting, input_le, aborted_iff, runtime_kinds⟩
  | store a => exact ⟨memWrite_store_wf s store_wf .., done_iff, waiting, input_le, aborted_iff, runtime_kinds⟩
  | input b hi hb =>
    obtain ⟨read, -⟩ := List.getElem?_eq_some_iff.mp hb
    exact ⟨store_wf, done_iff, waiting, read, aborted_iff, runtime_kinds⟩
  | finish => exact finish_inv inv run idle
  | unknown => exact diagnose_unknown_inv inv _

/-- The control point keeps the invariant of a machine that is not Aborted: Quit would not leave it so. -/
theorem controlPoint_inv (h : s.runState ≠ .aborted) : (controlPoint s).Inv := by
  have none_recorded := no_fetchPastEnd inv h
  obtain ⟨store_wf, done_iff, -, input_le, aborted_iff, runtime_kinds⟩ := inv
  obtain ⟨-, e⟩ | ⟨-, c, rest, -, e⟩ | ⟨latch, -, e⟩ := controlPoint_cases s <;> rw [e]
  · exact ⟨store_wf, done_iff, by simp, input_le, aborted_iff, runtime_kinds⟩
  · cases c with
    | step | cont | unrecognised =>
      exact ⟨store_wf, done_iff, by simp [applyCommand], input_le, aborted_iff, runtime_kinds⟩
    | quit =>
      refine ⟨store_wf, done_iff.trans ?_, by simp [applyCommand], input_le, ?_, runtime_kinds⟩
      · by_cases halted : s.runState = .halted <;> simp [applyCommand, halted]
      · by_cases halted : s.runState = .halted <;> simpa [applyCommand, halted] using none_recorded
  · exact ⟨store_wf, done_iff, by simp [latch], input_le, aborted_iff, runtime_kinds⟩

end

/-- Settles O47: by the three things a step can be; none executes in an Aborted machine. -/
theorem stepKeepsInvariant : Obligations.StepKeepsInvariant := by
  unfold Obligations.StepKeepsInvariant
  intro s t inv h
  obtain ⟨run, ⟨-, -, rfl⟩ | ⟨idle, -, rfl⟩ | ⟨idle, w, i, u, -, -, hu, rfl⟩⟩ := step_cases h
  · exact controlPoint_inv inv (by simp [run])
  · exact raise_fetchPastEnd_inv inv run idle _
  · have executed : u.Inv := exec_inv (advancePc_inv inv) run idle hu
    refine controlPoint_inv executed ?_
    rw [exec_runState hu]
    split <;> simp [run]

end Sys2Proof.Machine
end

section
/-! PROOFS. Step and Continue do not change a run (rule R203). -/

namespace Sys2Proof.Machine

/-! ## What of an outcome a program can see -/

/-- An outcome without what the control point alone reads and writes. -/
def visible : Result → Result
  | .next t => .next t.withoutControl
  | .fault f => .fault f
  | .refused r => .refused r

@[simp] theorem visible_next (t : State) : visible (.next t) = .next t.withoutControl := rfl
@[simp] theorem visible_fault (f : Fault) : visible (.fault f) = .fault f := rfl
@[simp] theorem visible_refused (r : Refusal) : visible (.refused r) = .refused r := rfl

theorem visible_eq_next {r : Result} {t : State} (h : visible r = .next t) :
    ∃ u, r = .next u ∧ u.withoutControl = t := by
  cases r with
  | next u => exact ⟨u, rfl, Host.Outcome.next.inj h⟩
  | fault f => cases h
  | refused r => cases h

theorem visible_eq_fault {r : Result} {f : Fault} (h : visible r = .fault f) : r = .fault f := by
  cases r <;> cases h
  rfl

theorem visible_eq_refused {r : Result} {q : Refusal} (h : visible r = .refused q) : r = .refused q := by
  cases r <;> cases h
  rfl

theorem jumpIf_withoutControl (s : State) (polarity : Bool) (target : Word) :
    s.withoutControl.jumpIf polarity target = (s.jumpIf polarity target).withoutControl := by
  have same_flags : s.withoutControl.flags = s.flags := rfl
  rw [State.jumpIf, State.jumpIf, same_flags, apply_ite State.withoutControl]
  rfl

/-- No instruction reads what belongs to the control point. -/
theorem exec_withoutControl (i : Instr) (s : State) : exec i s.withoutControl = visible (exec i s) := by
  cases i with
  | unknown | out | ldd _ | ldm _ | ldi _ | ldx _ | ldr _ | mov | subDirect _ | subImmediate _ | sto _ | addDirect _
  | addImmediate _ | incIx | incAcc | decIx | decAcc | xorDirect _ | xorImmediate _ | orDirect _ | orImmediate _
  | cmpDirect _ | cmpImmediate _ | endRun => rfl
  | inp =>
    cases h : inputByte s with
    | none =>
      have h' : inputByte s.withoutControl = none := h
      rw [exec_inp_exhausted h, exec_inp_exhausted h', visible_fault]
    | some b =>
      have h' : inputByte s.withoutControl = some b := h
      rw [exec_inp_of_byte h, exec_inp_of_byte h']
      rfl
  | lsl c =>
    cases h : shiftPlaces s.params.shiftOverwidth c with
    | none => rw [(exec_shift_refused h).1, (exec_shift_refused (s := s.withoutControl) h).1, visible_refused]
    | some k =>
      rw [exec_lsl_of_places h, exec_lsl_of_places (s := s.withoutControl) h]
      rfl
  | lsr c =>
    cases h : shiftPlaces s.params.shiftOverwidth c with
    | none => rw [(exec_shift_refused h).2, (exec_shift_refused (s := s.withoutControl) h).2, visible_refused]
    | some k =>
      rw [exec_lsr_of_places h, exec_lsr_of_places (s := s.withoutControl) h]
      rfl
  | jpeDirect t | jpeImmediate t => exact congrArg Host.Outcome.next (jumpIf_withoutControl s true t)
  | jpnDirect t | jpnImmediate t => exact congrArg Host.Outcome.next (jumpIf_withoutControl s false t)

/-! ## Commands that suffice for a run -/

/-- The commands carry the driver through `n` control points, and none of them ends the run. -/
def State.Drives (n : Nat) (s : State) : Prop :=
  s.awaitingCommand = false ∧
    (s.continueLatch = true ∨
      (∀ c ∈ s.ctrl, c = .step ∨ c = .cont) ∧ (n ≤ s.ctrl.length ∨ .cont ∈ s.ctrl))

/-- The same machine with the latch 1 and no command. -/
def State.freeRunning (s : State) : State :=
  { s with continueLatch := true, ctrl := [], awaitingCommand := false }

theorem freeRunning_drives (n : Nat) (s : State) : s.freeRunning.Drives n := ⟨rfl, .inl rfl⟩

theorem freeRunning_withoutControl (s : State) : s.freeRunning.withoutControl = s.withoutControl := rfl

/-- The free run depends only on what a program can see. -/
theorem freeRunning_congr {s t : State} (h : s.withoutControl = t.withoutControl) : s.freeRunning = t.freeRunning := by
  change s.withoutControl.freeRunning = t.withoutControl.freeRunning
  rw [h]

section
variable {n : Nat} {s t : State}

theorem State.Drives.of_succ (h : s.Drives (n + 1)) : s.Drives n := by
  obtain ⟨idle, latch | ⟨commands, enough⟩⟩ := h
  · exact ⟨idle, .inl latch⟩
  · exact ⟨idle, .inr ⟨commands, enough.imp_left Nat.le_of_succ_le⟩⟩

/-- A control point that is driven changes nothing a program can see, and leaves the driver to the next one. -/
theorem controlPoint_of_drives (h : s.Drives (n + 1)) :
    (controlPoint s).Drives n ∧ (controlPoint s).withoutControl = s.withoutControl := by
  obtain ⟨-, h⟩ := h
  cases latch : s.continueLatch with
  | true =>
    rw [controlPoint_of_latch latch]
    exact ⟨⟨rfl, .inl latch⟩, rfl⟩
  | false =>
    obtain ⟨commands, enough⟩ : (∀ c ∈ s.ctrl, c = .step ∨ c = .cont) ∧ (n + 1 ≤ s.ctrl.length ∨ .cont ∈ s.ctrl) := by
      simpa [latch] using h
    cases ctrl : s.ctrl with
    | nil => simp [ctrl] at enough
    | cons c rest =>
      rw [ctrl] at commands enough
      obtain ⟨first, others⟩ := List.forall_mem_cons.mp commands
      obtain rfl | rfl := first
      · rw [controlPoint_of_command latch (by rw [ctrl]; rfl), applyCommand]
        exact ⟨⟨rfl, .inr ⟨others, by simpa using enough⟩⟩, rfl⟩
      · rw [controlPoint_of_command latch (by rw [ctrl]; rfl), applyCommand]
        exact ⟨⟨rfl, .inl rfl⟩, rfl⟩

theorem exec_drives {i : Instr} (h : s.Drives n) (hx : exec i s = .next t) : t.Drives n := by
  obtain ⟨latch, ctrl, awaiting⟩ := exec_driver_fields hx
  rwa [State.Drives, latch, ctrl, awaiting]

/-- An executed instruction with its control point, as a program sees it. -/
theorem visible_atControlPoint (h : s.Drives (n + 1)) (i : Instr) :
    visible (atControlPoint (exec i s)) = exec i s.withoutControl := by
  rw [exec_withoutControl]
  cases hx : exec i s with
  | next t => rw [atControlPoint, visible_next, (controlPoint_of_drives (exec_drives h hx)).2, visible_next]
  | fault f => rfl
  | refused r => rfl

/-- A fetched word, as a program sees it, is the same in the free run. -/
theorem visible_executeWord (h : s.Drives (n + 1)) (w : InstrWord) :
    visible (executeWord w s) = visible (executeWord w s.freeRunning) := by
  by_cases decodes : ∃ i, decode w = .ok i
  · obtain ⟨i, hi⟩ := decodes
    have driven : s.advancePc.Drives (n + 1) := h
    have free : s.freeRunning.advancePc.Drives (n + 1) := freeRunning_drives _ s
    rw [executeWord_ok hi, executeWord_ok hi, visible_atControlPoint driven, visible_atControlPoint free]
    rfl
  · rw [executeWord_reserved decodes, executeWord_reserved decodes]

/-- A driven step, as a program sees it, is the step of the free run. -/
theorem visible_step (h : s.Drives (n + 1)) : visible (step s) = visible (step s.freeRunning) := by
  cases run : s.runState with
  | halted | aborted | stopped => simp [step, driverStep, run, State.freeRunning]
  | running =>
    have idle : s.awaitingCommand = false := h.1
    have idle' : s.freeRunning.awaitingCommand = false := rfl
    rw [step_running run, if_neg (by simp [idle]), step_running (s := s.freeRunning) run, if_neg (by simp [idle'])]
    by_cases bound : s.params.prog.length ≤ 65535
    · rw [iterate_fit bound, iterate_fit (s := s.freeRunning) bound]
      have same_fetch : fetch s.freeRunning = fetch s := rfl
      rw [same_fetch]
      cases fetch s with
      | none => rfl
      | some w => exact visible_executeWord h w
    · rw [iterate_tooLong (not_le.mp bound), iterate_tooLong (s := s.freeRunning) (not_le.mp bound)]

theorem step_drives (h : s.Drives (n + 1)) (hs : step s = .next t) : t.Drives n := by
  obtain ⟨-, ⟨waits, -⟩ | ⟨-, -, rfl⟩ | ⟨-, w, i, u, -, -, hu, rfl⟩⟩ := step_cases hs
  · simp [h.1] at waits
  · exact h.of_succ
  · have before : s.advancePc.Drives (n + 1) := h
    exact (controlPoint_of_drives (exec_drives before hu)).1

/-- A driven run, as a program sees it, is the free run. -/
theorem visible_run (h : s.Drives n) : visible (core.run n s) = visible (core.run n s.freeRunning) := by
  induction n generalizing s with
  | zero => rfl
  | succ n ih =>
    have free := freeRunning_drives (n + 1) s
    have same := (visible_step h).symm
    cases hs : step s with
    | next t =>
      obtain ⟨u, hu, htu⟩ := visible_eq_next (hs ▸ same)
      rw [run_succ_next hs, run_succ_next hu, ih (step_drives h hs), ih (step_drives free hu), freeRunning_congr htu]
    | fault f => rw [run_succ_fault hs, run_succ_fault (visible_eq_fault (hs ▸ same))]
    | refused r => rw [run_succ_refused hs, run_succ_refused (visible_eq_refused (hs ▸ same))]

end

/-- Settles O45: the commands given drive the run, so the program sees the free run. -/
theorem stepAndContinueAreInvisible : Obligations.StepAndContinueAreInvisible := by
  unfold Obligations.StepAndContinueAreInvisible
  intro n s commands allowed enough
  have driven : { s with continueLatch := false, ctrl := commands, awaitingCommand := false }.Drives n :=
    ⟨rfl, .inr ⟨allowed, enough⟩⟩
  have same : visible (core.run n { s with continueLatch := true, ctrl := [], awaitingCommand := false }) =
      visible (core.run n { s with continueLatch := false, ctrl := commands, awaitingCommand := false }) :=
    (visible_run driven).symm
  generalize core.run n { s with continueLatch := true, ctrl := [], awaitingCommand := false } = free at same ⊢
  generalize core.run n { s with continueLatch := false, ctrl := commands, awaitingCommand := false } = run at same ⊢
  cases run with
  | next t =>
    obtain ⟨u, rfl, seen⟩ := visible_eq_next same
    exact seen.symm
  | fault f =>
    obtain rfl := visible_eq_fault same
    rfl
  | refused r =>
    obtain rfl := visible_eq_refused same
    rfl

end Sys2Proof.Machine
end

section
/-! PROOFS. Boot (rules R220 to R223) and the progress of a fit program (rule R230). -/

namespace Sys2Proof.Machine

/-! ## Fit programs -/

theorem wordProblem_eq_none_iff (setting : ShiftOverwidth) (w : InstrWord) :
    wordProblem setting w = none ↔ ∃ i, decode w = .ok i ∧ i.wellFormed setting = true := by
  unfold wordProblem
  cases decode w with
  | error e => simp
  | ok i => simp

theorem programFit_iff (p : Params) :
    ProgramFit p ↔ p.prog.length ≤ 65535 ∧
      ∀ w ∈ p.prog, ∃ i, decode w = .ok i ∧ i.wellFormed p.shiftOverwidth = true := by
  unfold ProgramFit programProblem
  split
  · rename_i long
    simp [long.not_ge]
  · rename_i bound
    simp [Nat.not_lt.mp bound, wordProblem_eq_none_iff]

theorem boot_eq_ok_iff {p : Params} {commands : List Command} {s : State} :
    boot p commands = .ok s ↔ ProgramFit p ∧ s = State.created p commands := by
  unfold boot ProgramFit
  cases programProblem p with
  | none => simp [eq_comm]
  | some r => simp

theorem created_inv (p : Params) (commands : List Command) : (State.created p commands).Inv :=
  ⟨Memory.nil_wf, by simp [State.created, State.reset], by simp [State.created, State.reset], Nat.zero_le _,
    by simp [State.created, State.reset], by simp [State.created, State.reset]⟩

/-- Settles O51: boot answers the created machine, of a fit program only. -/
theorem bootAcceptsFitPrograms : Obligations.BootAcceptsFitPrograms := by
  unfold Obligations.BootAcceptsFitPrograms
  intro p commands
  rw [← programFit_iff]
  refine ⟨⟨fun ⟨s, h⟩ => (boot_eq_ok_iff.mp h).1, fun fit => ⟨_, boot_eq_ok_iff.mpr ⟨fit, rfl⟩⟩⟩, fun s h => ?_⟩
  obtain ⟨-, rfl⟩ := boot_eq_ok_iff.mp h
  refine ⟨created_inv p commands, rfl, rfl, rfl, rfl, rfl, rfl, rfl, rfl, rfl, rfl, rfl, fun zero => ?_⟩
  simp [State.created, zero, State.reset, Flags.zero]

/-! ## Progress -/

/-- A well-formed shift has a number of places. -/
theorem shiftPlaces_of_wellFormed {setting : ShiftOverwidth} {c : Word}
    (h : (setting != .refuse || decide (c.toNat < 16)) = true) : ∃ k, shiftPlaces setting c = some k := by
  by_cases small : c.toNat < 16
  · exact ⟨_, shiftPlaces_below setting small⟩
  · have wide := not_lt.mp small
    cases setting with
    | refuse => simp [small] at h
    | zero => exact ⟨_, shiftPlaces_zero wide⟩
    | mod16 => exact ⟨_, shiftPlaces_mod16 wide⟩

/-- A well-formed instruction answers a state, unless it is IN with no byte to read. -/
theorem exec_answers {i : Instr} {s : State} (h : i.wellFormed s.params.shiftOverwidth = true) :
    (∃ t, exec i s = .next t) ∨ (i = .inp ∧ inputByte s = none) := by
  cases i with
  | inp =>
    cases hb : inputByte s with
    | none => exact .inr ⟨rfl, rfl⟩
    | some b => exact .inl ⟨_, exec_inp_of_byte hb⟩
  | lsl c =>
    obtain ⟨k, places⟩ := shiftPlaces_of_wellFormed h
    exact .inl ⟨_, exec_lsl_of_places places⟩
  | lsr c =>
    obtain ⟨k, places⟩ := shiftPlaces_of_wellFormed h
    exact .inl ⟨_, exec_lsr_of_places places⟩
  | unknown | out | ldd _ | ldm _ | ldi _ | ldx _ | ldr _ | mov | subDirect _ | subImmediate _ | sto _ | addDirect _
  | addImmediate _ | incIx | incAcc | decIx | decAcc | xorDirect _ | xorImmediate _ | orDirect _ | orImmediate _
  | cmpDirect _ | cmpImmediate _ | jpeDirect _ | jpeImmediate _ | jpnDirect _ | jpnImmediate _ | endRun =>
    exact .inl ⟨_, rfl⟩

/-- Settles O49: a waiting driver resumes or is blocked; else the end is past, or a well-formed instruction executes. -/
theorem fitProgramMakesProgress : Obligations.FitProgramMakesProgress := by
  unfold Obligations.FitProgramMakesProgress
  intro s inv fit run
  obtain ⟨bound, words⟩ := (programFit_iff _).mp fit
  cases waits : s.awaitingCommand with
  | true =>
    rw [step_waiting run waits]
    cases available : commandAvailable s with
    | true => exact .inl ⟨_, rfl⟩
    | false =>
      obtain ⟨latch, none_left⟩ := (commandAvailable_false_iff s).mp available
      exact .inr (.inl ⟨rfl, rfl, latch, none_left⟩)
  | false =>
    cases h : fetch s with
    | none => exact .inl ⟨_, step_past_end run waits bound h⟩
    | some w =>
      obtain ⟨i, hi, legal⟩ := words w (List.mem_of_getElem? h)
      obtain ⟨t, ht⟩ | ⟨rfl, exhausted⟩ := exec_answers (s := s.advancePc) legal
      · exact .inl ⟨controlPoint t, by rw [step_of_decode run waits bound h hi, ht, atControlPoint]⟩
      · have word : w = 0x01010000#32 := (encodeOfDecodeIsIdentity w _ hi).symm
        have at_end : s.inputPos = s.params.input.length :=
          le_antisymm inv.input_le (List.getElem?_eq_none_iff.mp exhausted)
        exact .inr (.inr ⟨step_inp_exhausted run waits bound h hi exhausted, rfl, word ▸ h, at_end⟩)

end Sys2Proof.Machine
end

section
/-! PROOFS. The ports of a step (rules R35, R66). -/

namespace Sys2Proof.Machine

variable {s t : State}

/-! ## The data memory ports -/

/-- The contents returned are those of the cells addressed with the strobe 0. -/
theorem dataAccesses_readData (i : Instr) (s : State) :
    (dataAccesses i s).filterMap DataAccess.readData =
      (((dataAccesses i s).map DataAccess.request).filter fun r => !r.we).map
        fun r => s.store.read (phys s.params r.address) := by
  obtain ⟨addresses, reads⟩ | ⟨a, rfl, write⟩ := dataAccesses_cases i s
  · simp [reads, readCycle, memRead, List.filter_map, Function.comp_def]
  · simp [write]

/-- At most one request has the strobe 1. -/
theorem dataAccesses_one_write (i : Instr) (s : State) :
    (((dataAccesses i s).map DataAccess.request).filter fun r => r.we).length ≤ 1 := by
  obtain ⟨addresses, reads⟩ | ⟨a, rfl, write⟩ := dataAccesses_cases i s
  · simp [reads, readCycle, List.filter_map, Function.comp_def]
  · simp [write]

/-- Reads leave the store. -/
theorem foldl_readCycles (p : Params) (m : Memory) (addresses : List Word) :
    ((addresses.map (readCycle s)).map DataAccess.request).foldl (DataRequest.applyTo p) m = m := by
  induction addresses with
  | nil => rfl
  | cons a rest ih => exact ih

/-- The store after an instruction is the one before with its requests applied. -/
theorem exec_store_of_requests {i : Instr} (h : exec i s = .next t) :
    t.store = ((dataAccesses i s).map DataAccess.request).foldl (DataRequest.applyTo s.params) s.store := by
  obtain ⟨addresses, reads⟩ | ⟨a, rfl, write⟩ := dataAccesses_cases i s
  · have not_sto (a : Word) : i ≠ .sto a := by
      rintro rfl
      cases addresses <;> simp [dataAccesses, readCycle] at reads
    rw [reads, foldl_readCycles, exec_store_of_not_sto h not_sto]
  · cases h
    rw [write]
    rfl

/-! ## The history strobes -/

/-- A history grew by the one element its strobe carried, or not at all. -/
def GrowsByStrobe {α : Type} (before after : List α) : Prop := ∃ x : Option α, after = before ++ x.toList

theorem GrowsByStrobe.refl {α : Type} (l : List α) : GrowsByStrobe l l := ⟨none, by simp⟩

theorem GrowsByStrobe.concat {α : Type} (l : List α) (x : α) : GrowsByStrobe l (l ++ [x]) := ⟨some x, rfl⟩

/-- The element is the one found behind the old history. -/
theorem GrowsByStrobe.eq_append {α : Type} {l l' : List α} (h : GrowsByStrobe l l') :
    l' = l ++ l'[l.length]?.toList := by
  obtain ⟨x, rfl⟩ := h
  cases x <;> simp

theorem exec_grows {i : Instr} (h : exec i s = .next t) :
    GrowsByStrobe s.output t.output ∧ GrowsByStrobe s.diags t.diags := by
  cases exec_effect h with
  | output => exact ⟨.concat .., .refl _⟩
  | unknown => exact ⟨.refl _, .concat ..⟩
  | accFlags | flagsOnly | index | store | jump | fall | input | finish => exact ⟨.refl _, .refl _⟩

/-! ## A step on the ports -/

theorem bound_of_step (idle : s.awaitingCommand = false) (h : step s = .next t) : s.params.prog.length ≤ 65535 := by
  by_contra long
  have run := (step_cases h).1
  rw [step_running run, if_neg (by simp [idle]), iterate_tooLong (not_le.mp long)] at h
  cases h

/-- A step either executes an instruction, whose accesses are the step's, or makes no access and leaves the store. -/
theorem step_ports_cases (h : step s = .next t) :
    (∃ i u, stepAccesses s = dataAccesses i s.advancePc ∧ exec i s.advancePc = .next u ∧ t = controlPoint u) ∨
    (stepAccesses s = [] ∧ t.store = s.store ∧ t.output = s.output ∧ GrowsByStrobe s.diags t.diags) := by
  have no_access (none : ∀ i, executedInstr s ≠ some i) : stepAccesses s = [] :=
    stepAccesses_none (Option.eq_none_iff_forall_ne_some.mpr none)
  obtain ⟨run, ⟨waits, -, rfl⟩ | ⟨-, past, rfl⟩ | ⟨idle, w, i, u, hw, hi, hu, rfl⟩⟩ := step_cases h
  · refine .inr ⟨no_access fun i hi => ?_, controlPoint_store s, controlPoint_output s, ⟨none, by simp⟩⟩
    obtain ⟨⟨-, idle, -⟩, -⟩ := executedInstr_eq_some.mp hi
    simp [waits] at idle
  · refine .inr ⟨no_access fun i hi => ?_, rfl, rfl, .concat ..⟩
    obtain ⟨-, w, hw, -⟩ := executedInstr_eq_some.mp hi
    simp [past] at hw
  · exact .inl ⟨i, u, stepAccesses_some (executedInstr_eq_some.mpr ⟨⟨run, idle, bound_of_step idle h⟩, w, hw, hi⟩),
      hu, rfl⟩

/-- Settles O57: the ports carry the accesses and the emissions of the instruction executed, if there is one. -/
theorem portsAccountForStep : Obligations.PortsAccountForStep := by
  unfold Obligations.PortsAccountForStep
  intro s t h
  rw [outputPorts, State.inputPorts]
  obtain ⟨i, u, accesses, hu, rfl⟩ | ⟨accesses, store, output, diags⟩ := step_ports_cases h
  · obtain ⟨output, diags⟩ := exec_grows hu
    rw [accesses, controlPoint_store, controlPoint_output, controlPoint_diags]
    have store := exec_store_of_requests hu
    exact ⟨store, dataAccesses_readData i s.advancePc, dataAccesses_one_write i s.advancePc,
      output.eq_append, diags.eq_append⟩
  · rw [accesses, store, output]
    exact ⟨rfl, rfl, Nat.zero_le _, (GrowsByStrobe.refl _).eq_append, diags.eq_append⟩

end Sys2Proof.Machine
end

section
/-! PROOFS. The Symbol Table (rules R104, R106, R107). -/

namespace Sys2Proof.Machine

/-! ## Entries -/

theorem lookupName_insertName_same (entries : List (Text × Word)) (name : Text) (address : Word) :
    lookupName (insertName entries name address) name = some address := by
  induction entries with
  | nil => simp [insertName, lookupName]
  | cons entry rest ih =>
    by_cases h : entry.1 = name
    · simp [insertName, lookupName, h]
    · simp [insertName, lookupName, h, ih]

theorem lookupName_insertName_other (entries : List (Text × Word)) {name other : Text} (h : other ≠ name)
    (address : Word) : lookupName (insertName entries name address) other = lookupName entries other := by
  induction entries with
  | nil => simp [insertName, lookupName, h.symm]
  | cons entry rest ih =>
    by_cases hk : entry.1 = name
    · simp [insertName, lookupName, hk, h.symm]
    · simp [insertName, lookupName, hk, ih]

namespace SymbolTable

variable {t : SymbolTable} {name other : Text}

/-! ## One registration -/

theorem registerVariable_of_resolve {address : Word} (h : t.resolve name = some address) :
    t.registerVariable name = t := by
  simp [registerVariable, h]

theorem registerVariable_of_new (h : t.resolve name = none) :
    t.registerVariable name =
      { t with entries := insertName t.entries name (BitVec.ofNat 16 t.varCount), varCount := t.varCount + 1 } := by
  simp [registerVariable, h]

theorem resolve_of_ne (hAcc : name ≠ nameAcc) (hIx : name ≠ nameIx) : t.resolve name = lookupName t.entries name := by
  rw [resolve, if_neg hAcc, if_neg hIx]

/-- A name that does not resolve is neither `ACC` nor `IX`. -/
theorem ne_reserved_of_new (h : t.resolve name = none) : name ≠ nameAcc ∧ name ≠ nameIx := by
  constructor <;> rintro rfl
  · simp at h
  · simp at h

theorem resolve_registerVariable_same (h : t.resolve name = none) :
    (t.registerVariable name).resolve name = some (BitVec.ofNat 16 t.varCount) := by
  obtain ⟨hAcc, hIx⟩ := ne_reserved_of_new h
  rw [registerVariable_of_new h, resolve_of_ne hAcc hIx, lookupName_insertName_same]

theorem resolve_registerVariable_other (h : other ≠ name) :
    (t.registerVariable name).resolve other = t.resolve other := by
  cases known : t.resolve name with
  | some address => rw [registerVariable_of_resolve known]
  | none => rw [registerVariable_of_new known, resolve, resolve, lookupName_insertName_other _ h]

/-! ## Registrations in order -/

/-- Names that are distinct and that none of the table resolves. -/
def New (t : SymbolTable) (names : List Text) : Prop := names.Nodup ∧ ∀ x ∈ names, t.resolve x = none

theorem New.tail {names : List Text} (h : t.New (name :: names)) : (t.registerVariable name).New names := by
  obtain ⟨distinct, unresolved⟩ := h
  obtain ⟨fresh, distinct⟩ := List.nodup_cons.mp distinct
  refine ⟨distinct, fun x hx => ?_⟩
  have ne : x ≠ name := fun same => fresh (same ▸ hx)
  rw [resolve_registerVariable_other ne]
  exact unresolved x (List.mem_cons_of_mem _ hx)

theorem New.head {names : List Text} (h : t.New (name :: names)) : t.resolve name = none := h.2 name List.mem_cons_self

theorem resolve_foldl_other {names : List Text} (h : other ∉ names) :
    (names.foldl registerVariable t).resolve other = t.resolve other := by
  induction names generalizing t with
  | nil => rfl
  | cons x rest ih =>
    obtain ⟨ne, later⟩ := not_or.mp (List.mem_cons.not.mp h)
    rw [List.foldl_cons, ih later, resolve_registerVariable_other ne]

theorem varCount_foldl {names : List Text} (h : t.New names) :
    (names.foldl registerVariable t).varCount = t.varCount + names.length := by
  induction names generalizing t with
  | nil => rfl
  | cons x rest ih =>
    rw [List.foldl_cons, ih h.tail, registerVariable_of_new h.head, List.length_cons, Nat.add_right_comm,
      Nat.add_assoc]

theorem resolve_foldl {names : List Text} (h : t.New names) {k : Nat} {x : Text} (hx : names[k]? = some x) :
    (names.foldl registerVariable t).resolve x = some (BitVec.ofNat 16 (t.varCount + k)) := by
  induction names generalizing t k with
  | nil => cases hx
  | cons y rest ih =>
    rw [List.foldl_cons]
    cases k with
    | zero =>
      obtain rfl : y = x := Option.some.inj hx
      rw [resolve_foldl_other (List.nodup_cons.mp h.1).1, resolve_registerVariable_same h.head, Nat.add_zero]
    | succ k =>
      rw [ih h.tail hx, registerVariable_of_new h.head, Nat.add_assoc, Nat.add_comm 1 k]

theorem resolve_empty (h : name ≠ nameAcc ∧ name ≠ nameIx) : empty.resolve name = none :=
  resolve_of_ne h.1 h.2

end SymbolTable

/-- Settles O52: `resolve` answers for both names before it looks at the table, so neither is registered. -/
theorem accAndIxResolve : Obligations.AccAndIxResolve := by
  unfold Obligations.AccAndIxResolve
  intro t
  exact ⟨t.resolve_acc, t.resolve_ix, SymbolTable.registerVariable_of_resolve t.resolve_acc,
    SymbolTable.registerVariable_of_resolve t.resolve_ix⟩

/-- Settles O53: each registration takes the count as the address and leaves the other names. -/
theorem variablesTakeFirstUseAddresses : Obligations.VariablesTakeFirstUseAddresses := by
  unfold Obligations.VariablesTakeFirstUseAddresses
  refine ⟨fun names distinct unreserved => ?_, fun t name address => SymbolTable.registerVariable_of_resolve⟩
  have fresh : SymbolTable.empty.New names := ⟨distinct, fun x hx => SymbolTable.resolve_empty (unreserved x hx)⟩
  have none_yet : SymbolTable.empty.varCount = 0 := rfl
  constructor
  · rw [SymbolTable.varCount_foldl fresh, none_yet, Nat.zero_add]
  · intro k x hx
    rw [SymbolTable.resolve_foldl fresh hx, none_yet, Nat.zero_add]

end Sys2Proof.Machine
end

section
/-! PROOFS. The assembler pass (rules R103, R108 to R112, R121, R194) and the boot of what it emits (rule R223). -/

namespace Sys2Proof.Machine

variable {c c' : Code} {index : Nat} {raw : Text} {lines : List Text}

/-! ## The pass, line by line -/

/-- A pass that does not end in a fatal error is one line that does not, and such a pass over the rest. -/
theorem assembleFrom_cons_ok (h : assembleFrom c index (raw :: lines) = .ok c') :
    ∃ d, assembleLine c index raw = .ok d ∧ assembleFrom d (index + 1) lines = .ok c' := by
  rw [assembleFrom] at h
  cases hd : assembleLine c index raw with
  | error e => simp [hd] at h
  | ok d => exact ⟨d, rfl, by simpa [hd] using h⟩

/-- What every line keeps, the pass keeps. -/
theorem assembleFrom_induct {P : Code → Prop}
    (line : ∀ {c d : Code} {index : Nat} {raw : Text}, P c → assembleLine c index raw = .ok d → P d)
    (start : P c) (h : assembleFrom c index lines = .ok c') : P c' := by
  induction lines generalizing c index with
  | nil => exact Except.ok.inj h ▸ start
  | cons raw rest ih =>
    obtain ⟨d, hd, hrest⟩ := assembleFrom_cons_ok h
    exact ih (line start hd) hrest

/-! ## Debug records -/

/-- A prepared line from which an instruction is decoded (rules R108, R109). -/
def isInstrLine (line : Text) : Bool := decide (line ≠ [] ∧ labelOf line = none)

theorem assembleLine_debugText (h : assembleLine c index raw = .ok c') :
    c'.debugText = c.debugText ++ [prepareLine raw].filter isInstrLine := by
  obtain ⟨blank, rfl⟩ | ⟨-, name, label, rfl⟩ | ⟨nonblank, no_label, i, symbols, -, rfl⟩ := assembleLine_cases h
  · simp [isInstrLine, blank]
  · simp [isInstrLine, label]
  · simp [isInstrLine, nonblank, no_label]

theorem assembleFrom_debugText (h : assembleFrom c index lines = .ok c') :
    c'.debugText = c.debugText ++ (lines.map prepareLine).filter isInstrLine := by
  induction lines generalizing c index with
  | nil => simp [← Except.ok.inj h]
  | cons raw rest ih =>
    obtain ⟨d, hd, hrest⟩ := assembleFrom_cons_ok h
    rw [ih hrest, assembleLine_debugText hd, List.append_assoc, ← List.filter_append, List.map_cons]
    rfl

/-- One debug record for each instruction. -/
theorem assembleLine_records_length (before : c.instrs.length = c.records.length)
    (h : assembleLine c index raw = .ok c') : c'.instrs.length = c'.records.length := by
  obtain ⟨-, rfl⟩ | ⟨-, name, -, rfl⟩ | ⟨-, -, i, symbols, -, rfl⟩ := assembleLine_cases h
  · exact before
  · exact before
  · simp [before]

/-- A line adds no record but its own. -/
theorem assembleLine_records (h : assembleLine c index raw = .ok c') {d : DebugRecord} (hd : d ∈ c'.records) :
    d ∈ c.records ∨ d = { line := index, raw := raw } := by
  obtain ⟨-, rfl⟩ | ⟨-, name, -, rfl⟩ | ⟨-, -, i, symbols, -, rfl⟩ := assembleLine_cases h
  · exact .inl hd
  · exact .inl hd
  · simpa using hd

theorem assembleFrom_records (h : assembleFrom c index lines = .ok c') {d : DebugRecord} (hd : d ∈ c'.records) :
    d ∈ c.records ∨ ∃ k, d.line = index + k ∧ lines[k]? = some d.raw := by
  induction lines generalizing c index with
  | nil => exact .inl (Except.ok.inj h ▸ hd)
  | cons raw rest ih =>
    obtain ⟨e, he, hrest⟩ := assembleFrom_cons_ok h
    obtain earlier | ⟨k, hk, found⟩ := ih hrest
    · obtain before | rfl := assembleLine_records he earlier
      · exact .inl before
      · exact .inr ⟨0, rfl, rfl⟩
    · exact .inr ⟨k + 1, by omega, found⟩

/-- Settles O55: each line adds its own text and record, if an instruction is decoded from it. -/
theorem debugRecordsReproduceSource : Obligations.DebugRecordsReproduceSource := by
  unfold Obligations.DebugRecordsReproduceSource
  intro lines c h
  refine ⟨assembleFrom_debugText h, assembleFrom_induct assembleLine_records_length rfl h, fun d hd => ?_⟩
  obtain initial | ⟨k, hk, found⟩ := assembleFrom_records h hd
  · cases initial
  · rwa [hk, Nat.zero_add]

/-! ## Reports of Unknown lines -/

/-- The reports of the Unknown instructions of a program, each with its index. -/
def unknownReports (instrs : List Instr) : List Diag :=
  (instrs.zipIdx.filter fun p => decide (p.1 = .unknown)).map
    fun p => { kind := .unknownInstruction, info := BitVec.ofNat 16 p.2 }

theorem unknownReports_concat (instrs : List Instr) (i : Instr) :
    unknownReports (instrs ++ [i]) =
      unknownReports instrs ++
        if i = .unknown then [{ kind := .unknownInstruction, info := BitVec.ofNat 16 instrs.length }] else [] := by
  by_cases h : i = .unknown <;> simp [unknownReports, List.zipIdx_append, h]

theorem assembleLine_warnings (before : c.warnings = unknownReports c.instrs)
    (h : assembleLine c index raw = .ok c') : c'.warnings = unknownReports c'.instrs := by
  obtain ⟨-, rfl⟩ | ⟨-, name, -, rfl⟩ | ⟨-, -, i, symbols, -, rfl⟩ := assembleLine_cases h
  · exact before
  · exact before
  · rw [Code.addInstr_warnings, Code.addInstr_instrs, unknownReports_concat, before]
    split
    · rfl
    · rw [List.append_nil]

/-- A pass that ends in a fatal error does so at one of its lines, with the reports of the pass before it. -/
theorem assembleFrom_error {e : AsmError} (h : assembleFrom c index lines = .error e) :
    ∃ k < lines.length, e.line = index + k ∧
      ∃ c', assembleFrom c index (lines.take k) = .ok c' ∧ e.warnings = c'.warnings := by
  induction lines generalizing c index with
  | nil => cases h
  | cons raw rest ih =>
    rw [assembleFrom] at h
    cases hd : assembleLine c index raw with
    | error e' =>
      obtain rfl : e' = e := by simpa [hd] using h
      obtain ⟨-, -, -, line, warnings⟩ := assembleLine_error hd
      exact ⟨0, Nat.zero_lt_succ _, line, c, rfl, warnings⟩
    | ok d =>
      obtain ⟨k, hk, line, c', assembled, warnings⟩ := ih (by simpa [hd] using h)
      refine ⟨k + 1, Nat.succ_lt_succ hk, by omega, c', ?_, warnings⟩
      rw [List.take_succ_cons, assembleFrom, hd]
      exact assembled

/-- Settles O58: the reports are kept line by line, and a fatal line carries those of the pass before it. -/
theorem assemblyReportsEveryUnknown : Obligations.AssemblyReportsEveryUnknown := by
  unfold Obligations.AssemblyReportsEveryUnknown
  intro lines
  refine ⟨fun c h => assembleFrom_induct assembleLine_warnings rfl h, fun e h => ?_⟩
  obtain ⟨k, hk, line, c, assembled, warnings⟩ := assembleFrom_error h
  rw [Nat.zero_add] at line
  rw [line]
  exact ⟨hk, c, assembled, warnings⟩

/-! ## Booting an assembled program -/

theorem wellFormed_iff (setting : ShiftOverwidth) (i : Instr) :
    i.wellFormed setting = true ↔ (setting = .refuse → ∀ k, i.shiftCount = some k → k.toNat < 16) := by
  unfold Instr.wellFormed
  cases i.shiftCount with
  | none => simp
  | some k => cases setting <;> simp

/-- Settles O56: the assembler's words are encodings, which decode to the instructions they encode. -/
theorem assembledProgramsBoot : Obligations.AssembledProgramsBoot := by
  unfold Obligations.AssembledProgramsBoot
  intro lines c r _ bound shifts
  have fit : ProgramFit (c.params r) := by
    refine (programFit_iff _).mpr ⟨by simpa [Code.params, Code.words] using bound, fun w hw => ?_⟩
    obtain ⟨i, hi, rfl⟩ := List.mem_map.mp hw
    exact ⟨i, decode_encode i, (wellFormed_iff _ i).mpr fun refuse => shifts refuse i hi⟩
  refine ⟨_, boot_eq_ok_iff.mpr ⟨fit, rfl⟩, fun k i hi => ⟨encode i, ?_, decode_encode i⟩⟩
  change (c.instrs.map encode)[k]? = some (encode i)
  rw [List.getElem?_map, hi, Option.map_some]

end Sys2Proof.Machine
end
